-- ==== Sys2Proof/Word.lean ====
section
/-! DEFINITION. The word types of the STUN codec core: bytes, byte strings, the 32-bit command word and the fixed
byte strings of the message header (00_scope.md R10, R16, R17). All fields are unsigned. -/

namespace Sys2Proof

/-- A byte is 8 bits (R16). -/
abbrev Byte := BitVec 8

/-- A byte string: a finite sequence of bytes indexed from 0 (R17). -/
abbrev Bytes := List Byte

/-- The 32-bit command word of the CMD port (R41, R103). -/
abbrev CmdWord := BitVec 32

/-- The magic cookie field: 4 bytes (R10, R28). -/
abbrev Cookie := Vector Byte 4

/-- The transaction id: 12 bytes (R10, R29). -/
abbrev Txid := Vector Byte 12

end Sys2Proof
end

