-- ==== Sys2Proof/Config.lean ====
section
/-! DEFINITION. What the spec leaves open as a parameter of the model. Every constant here is free: it has no body, so
nothing can be proved of its value (00_scope.md R12, R14; 92_eei_decisions.md D22, D23). -/

namespace Sys2Proof

/-- What PARSE_IP answers for a text that is an address: `V4(a)` with `a` 4 bytes or `V6(a)` with `a` 16 bytes (R14). -/
inductive IpAddr where
  | v4 (a : Vector Byte 4)
  | v6 (a : Vector Byte 16)
  deriving DecidableEq, Repr

/-- IBUF_MAX, the capacity of the input buffer: OPEN, a natural number (R12).
DESIGN CHOICE (log 3): the value `State.reset` carries; safe, it is free. -/
opaque Config.ibufMax : Nat

/-- The 16 bytes of `PARSE_IP("2001:db8::1") = V6(a)`, "for some 16-byte `a`" (R14).
DESIGN CHOICE (log 4): free; safe. -/
opaque Config.parseIpV6Example : Vector Byte 16

/-- PARSE_IP on every text the two laws of R14 do not name: any total function; `none` is the spec's `None`.
DESIGN CHOICE (log 4): free; safe. -/
opaque Config.parseIpElsewhere : Bytes → Option IpAddr

end Sys2Proof
end

