-- ==== Sys2Proof/Syntax.lean ====
section
/-! DEFINITION. The instructions of the block: one constructor for each row of the opcode table (30_encoding.md R104,
R105). Operand fields have exactly the widths of R112, so no out-of-range operand can be written. -/

namespace Sys2Proof

/-- The twelve commands (R104), each with the operand fields of its word (R105). Text and payload operands come from
IBUF, not from the word. -/
inductive Instr where
  /-- CONSTRUCT method, class (R151). -/
  | construct (method : BitVec 12) (cls : BitVec 2)
  /-- ADD_ATTRIBUTE (R157). -/
  | addAttribute
  /-- SERIALIZE (R160). -/
  | serialize
  /-- DESERIALIZE (R165). -/
  | deserialize
  /-- ENCODE_ATTRIBUTE (R193). -/
  | encodeAttribute
  /-- DECODE_ATTRIBUTE off (R199). -/
  | decodeAttribute (off : BitVec 16)
  /-- BUILD_MAPPED_ADDRESS port (R201). -/
  | buildMappedAddress (port : BitVec 16)
  /-- BUILD_RAW type (R203). -/
  | buildRaw (typeCode : BitVec 16)
  /-- LOAD_ATTR index (R230). -/
  | loadAttr (index : BitVec 14)
  /-- PACK_TYPE method, class (R137). -/
  | packType (method : BitVec 12) (cls : BitVec 2)
  /-- UNPACK_TYPE word (R138). -/
  | unpackType (word : BitVec 16)
  /-- READ field (R231). The 6-bit selector is kept as written: an unknown one is an illegal word that the meaning
  turns into IllegalCommandError (R108, R235; log 11). -/
  | read (field : BitVec 6)
  deriving DecidableEq, Repr

/-- The field selectors of READ (R108). -/
inductive Selector where
  | msgState | method | cls | length | cookie | txid | attrCount
  | attrKind | attrType | attrDlen | attrFamily | attrPort | attrAddr | attrPayload
  | consumed
  deriving DecidableEq, Repr

end Sys2Proof
end

