-- ==== Sys2Proof/Machine/State.lean ====
section
/-! DEFINITION. The state of the block: every piece of state of 10_state.md R23, the two input ports and the host's
pending actions, as plain data. A register the spec says may hold "no value" (R37, R43, R45) is an Option of the spec's
own (log 5). -/

namespace Sys2Proof.Machine

/-- The value of an attribute: the closed tagged variant of R31. -/
inductive AttrValue where
  /-- MappedAddress: family 8 bits, port 16 bits, address bytes (R32). -/
  | mappedAddress (family : BitVec 8) (port : BitVec 16) (addr : Bytes)
  /-- Raw: an opaque payload (R33). -/
  | raw (payload : Bytes)
  deriving DecidableEq, Repr

/-- An Attribute record (R31). -/
structure Attribute where
  typeCode : BitVec 16
  declaredLength : BitVec 16
  value : AttrValue
  deriving DecidableEq, Repr

/-- MSG.state of a slot that holds a message (R24). EMPTY is the absent message of `State.msg`. -/
inductive Lifecycle where
  | building
  | sealed
  | decoded
  deriving DecidableEq, Repr

/-- The message record of the slot MSG when it is not EMPTY (R23 to R30). -/
structure Message where
  state : Lifecycle
  method : BitVec 12
  cls : BitVec 2
  length : BitVec 16
  cookie : Cookie
  txid : Txid
  attrs : List Attribute
  deriving DecidableEq, Repr

/-- A buffer's bytes: (index, byte) pairs, indices strictly rising. A byte not listed has no value (R39, R43, R45;
log 6). -/
abbrev Memory := List Host.Cell

/-- One interaction of the host that changes state (R44, R289). -/
inductive HostAction where
  /-- Load input: the bytes go to IBUF[0..n) and IBUF_LEN becomes n (R44). -/
  | loadInput (bytes : Bytes)
  /-- Present a word on CMD, with the answer the entropy source gives should the command draw (R15, R41, R42; log 2). -/
  | command (word : CmdWord) (draw : Option Txid)
  /-- Assert RST (R280). -/
  | assertReset
  deriving DecidableEq, Repr

/-- The whole state. -/
structure State where
  /-- The message slot MSG; `none` is MSG.state = EMPTY, all other fields without value (R24, R43). -/
  msg : Option Message
  /-- The staging register ATTR; `none` is ATTR.valid = 0, ATTR.attr without value (R36, R43). -/
  attr : Option Attribute
  /-- CONSUMED: no value, or a count (R37). -/
  consumed : Option (BitVec 17)
  /-- STATUS, 4 bits (R38). -/
  status : BitVec 4
  /-- OBUF (R39). -/
  obuf : Memory
  /-- OLEN, 17 bits (R23, R39). -/
  olen : BitVec 17
  /-- IBUF (R40). -/
  ibuf : Memory
  /-- IBUF_LEN (R40). -/
  ibufLen : Nat
  /-- IBUF_MAX, the parameter of R12: no step changes it (log 3). -/
  ibufMax : Nat
  /-- The answer on the entropy port ENT (R42; log 2). -/
  ent : Option Txid
  /-- The host's actions still to come, oldest first (R72, R289; log 1). -/
  host : List HostAction
  deriving DecidableEq, Repr

/-- Why the machine stops. Neither happens in a state that meets the invariant of Safety.lean. -/
inductive Fault where
  /-- A MemRead needs an IBUF byte that holds no value: "a fault of the model, never a value" (R18). Raised by the
  commands that read IBUF. Safe. -/
  | ibufByteAbsent
  /-- An output is longer than OBUF's 65555 bytes, which "No command can overflow" (R13). Raised by the commands that
  write OBUF. Safe. -/
  | obufOverflow
  deriving DecidableEq, Repr

/-- What the model has no meaning for. -/
inductive Refusal where
  /-- An instruction without a meaning yet: no arm uses it. Safe. -/
  | notModelled (mnemonic : String)
  /-- The host loads more than IBUF_MAX bytes, against its duty "keep n <= IBUF_MAX" (R44; log 8). Raised by the load
  action alone. Safe. -/
  | hostOverfillsIbuf
  deriving DecidableEq, Repr

/-- The state after reset (R45): MSG EMPTY, ATTR invalid, CONSUMED without value, STATUS 0, OLEN 0, IBUF_LEN 0, no
buffer byte with a value. IBUF_MAX is the free constant of Config (log 3); no entropy source answers yet (R282; log 2);
the host has issued nothing (log 1). -/
def State.reset : State where
  msg := none
  attr := none
  consumed := none
  status := 0
  obuf := []
  olen := 0
  ibuf := []
  ibufLen := 0
  ibufMax := Config.ibufMax
  ent := none
  host := []

end Sys2Proof.Machine
end

