-- ==== Sys2Proof/Machine/Flags.lean ====
section
/-! DEFINITION. STATUS, the block's only flag state (10_state.md R38): the error kinds and their codes
(60_exceptions.md R250). -/

namespace Sys2Proof.Machine

/-- The error kinds of R250, in the order of their codes. -/
inductive ErrorKind where
  | randomness
  | truncatedHeader
  | truncatedAttribute
  | truncatedValue
  | invalidFamily
  | invalidAddress
  | lengthMismatch
  | lengthOverflow
  | notMutable
  | noMessage
  | noAttribute
  | noField
  | invalidAttribute
  | illegalCommand
  deriving DecidableEq, Repr

/-- `code(E)`: the 4-bit code of an error (R250). -/
def errorCode (e : ErrorKind) : BitVec 4 :=
  match e with
  | .randomness => 1
  | .truncatedHeader => 2
  | .truncatedAttribute => 3
  | .truncatedValue => 4
  | .invalidFamily => 5
  | .invalidAddress => 6
  | .lengthMismatch => 7
  | .lengthOverflow => 8
  | .notMutable => 9
  | .noMessage => 10
  | .noAttribute => 11
  | .noField => 12
  | .invalidAttribute => 13
  | .illegalCommand => 14

/-- The code of success (R38, R250). -/
def statusOk : BitVec 4 := 0

end Sys2Proof.Machine
end

