-- ==== Sys2Proof/Machine/Operands.lean ====
section
/-! DEFINITION. The operand forms of the commands: byte order, zero extension, the text of an address, READ's selectors
(00_scope.md R14, R16, R17; 20_memory.md R61 to R63; 30_encoding.md R108, R112). -/

namespace Sys2Proof.Machine

/-- `be16`: a 16-bit big-endian value from its two bytes, most significant first (R17, R61). -/
def be16 (hi lo : Byte) : BitVec 16 := hi ++ lo

/-- `bytes16(v) = [v[15:8], v[7:0]]` (R17, R61). -/
def bytes16 (v : BitVec 16) : Bytes := [v.extractLsb' 8 8, v.extractLsb' 0 8]

/-- The four bytes of a 32-bit value, most significant first (R234). -/
def bytes32 (v : BitVec 32) : Bytes :=
  [v.extractLsb' 24 8, v.extractLsb' 16 8, v.extractLsb' 8 8, v.extractLsb' 0 8]

/-- `zext_n(v)`: widens with zeros (R16). -/
def zext {m : Nat} (n : Nat) (v : BitVec m) : BitVec n := v.setWidth n

/-- The text "203.0.113.5" as bytes (R14; 95_test_vectors.md X5). -/
def ipv4ExampleText : Bytes := [0x32, 0x30, 0x33, 0x2E, 0x30, 0x2E, 0x31, 0x31, 0x33, 0x2E, 0x35]

/-- The text "2001:db8::1" as bytes (R14; 95_test_vectors.md X6). -/
def ipv6ExampleText : Bytes := [0x32, 0x30, 0x30, 0x31, 0x3A, 0x64, 0x62, 0x38, 0x3A, 0x3A, 0x31]

/-- PARSE_IP: a parameter bound by the two laws of R14 and free on every other text (log 4). -/
def parseIp (text : Bytes) : Option IpAddr :=
  if text = ipv4ExampleText then some (.v4 #v[0xCB, 0x00, 0x71, 0x05])
  else if text = ipv6ExampleText then some (.v6 Config.parseIpV6Example)
  else Config.parseIpElsewhere text

/-- READ's selector from its 6 bits; `none` for one R108 does not list. -/
def selectorOf (f : BitVec 6) : Option Selector :=
  match f with
  | 0x01#6 => some .msgState
  | 0x02#6 => some .method
  | 0x03#6 => some .cls
  | 0x04#6 => some .length
  | 0x05#6 => some .cookie
  | 0x06#6 => some .txid
  | 0x07#6 => some .attrCount
  | 0x10#6 => some .attrKind
  | 0x11#6 => some .attrType
  | 0x12#6 => some .attrDlen
  | 0x13#6 => some .attrFamily
  | 0x14#6 => some .attrPort
  | 0x15#6 => some .attrAddr
  | 0x16#6 => some .attrPayload
  | 0x20#6 => some .consumed
  | _ => none

/-- The 6 bits of a selector (R108). -/
def selectorBits (sel : Selector) : BitVec 6 :=
  match sel with
  | .msgState => 0x01
  | .method => 0x02
  | .cls => 0x03
  | .length => 0x04
  | .cookie => 0x05
  | .txid => 0x06
  | .attrCount => 0x07
  | .attrKind => 0x10
  | .attrType => 0x11
  | .attrDlen => 0x12
  | .attrFamily => 0x13
  | .attrPort => 0x14
  | .attrAddr => 0x15
  | .attrPayload => 0x16
  | .consumed => 0x20

/-- MSG.state as its 2 bits: EMPTY 0, BUILDING 1, SEALED 2, DECODED 3 (R24). -/
def State.msgStateCode (s : State) : BitVec 2 :=
  match s.msg with
  | none => 0
  | some m =>
    match m.state with
    | .building => 1
    | .sealed => 2
    | .decoded => 3

/-- ATTR.valid, 1 bit (R36). -/
def State.attrValid (s : State) : BitVec 1 :=
  match s.attr with
  | none => 0
  | some _ => 1

end Sys2Proof.Machine
end

