-- ==== Sys2Proof/Machine/Ops.lean ====
section
/-! DEFINITION. The named operations over the registers and the two buffers: reading and writing bytes (00_scope.md R18,
20_memory.md R60, R66, R67), one update per register, and how a command ends: `ok` or `raise` (R18, R255). There is no
trap entry and no trap return (60_exceptions.md R256, R257): an error is a STATUS code and nothing else. -/

namespace Sys2Proof.Machine

/-! ### Buffers -/

/-- The canonical form of a buffer: indices strictly rising, so each byte is listed once. An unlisted byte reads as no
value, so no listed byte equals it (log 6). -/
abbrev Memory.wf (m : Memory) : Prop := m.Pairwise fun a b => a.1 < b.1

/-- The byte at an index; `none` where nothing has written one (R39, R43). -/
def Memory.read (m : Memory) (a : Nat) : Option Byte := m.lookup a

/-- `n` bytes from index `off` on; `none` if one of them holds no value. -/
def Memory.readBytes (m : Memory) : (off n : Nat) → Option Bytes
  | _, 0 => some []
  | off, n + 1 =>
    match m.read off with
    | none => none
    | some b =>
      match m.readBytes (off + 1) n with
      | none => none
      | some rest => some (b :: rest)

/-- The cells that hold a byte string from index `off` on. -/
def cellsFrom : (off : Nat) → Bytes → Memory
  | _, [] => []
  | off, b :: rest => (off, b) :: cellsFrom (off + 1) rest

/-- Writes `s` to indices 0 to `|s| - 1` and leaves every other byte as it was (R18; log 7). -/
def Memory.writeFromZero (m : Memory) (s : Bytes) : Memory :=
  cellsFrom 0 s ++ m.filter fun c => s.length ≤ c.1

/-- OBUF_SIZE (R13). -/
def obufSize : Nat := 65555

/-! ### One update for each register -/

/-- `STATUS <- v`. -/
def State.setStatus (s : State) (v : BitVec 4) : State := { s with status := v }

/-- Replaces the message slot (R24). -/
def State.setMsg (s : State) (m : Message) : State := { s with msg := some m }

/-- `ATTR.valid <- 1; ATTR.attr <- a` (R36). -/
def State.setAttr (s : State) (a : Attribute) : State := { s with attr := some a }

/-- `CONSUMED <- k` (R37). -/
def State.setConsumed (s : State) (k : BitVec 17) : State := { s with consumed := some k }

/-- The effect of `MemWrite(OBUF, out)`: OBUF[0..|out|) and OLEN (R18). -/
def State.setOutput (s : State) (out : Bytes) : State :=
  { s with obuf := s.obuf.writeFromZero out, olen := BitVec.ofNat 17 out.length }

/-- The effect of a host load: IBUF[0..n) and IBUF_LEN (R44). -/
def State.setInput (s : State) (bytes : Bytes) : State :=
  { s with ibuf := s.ibuf.writeFromZero bytes, ibufLen := bytes.length }

/-- The answer on the entropy port (R42). -/
def State.setEnt (s : State) (draw : Option Txid) : State := { s with ent := draw }

/-- The host's actions still to come. -/
def State.setHost (s : State) (rest : List HostAction) : State := { s with host := rest }

/-! ### How a command ends -/

/-- `raise E`: `STATUS <- code(E)`, and no other state changes (R18, R251, R255). -/
def raise (e : ErrorKind) (s : State) : State := s.setStatus (errorCode e)

/-- `ok`: commits the writes of the command with `STATUS <- 0` (R18, R22). -/
def ok (s : State) : State := s.setStatus statusOk

/-- `MemWrite(OBUF, out)` and then `ok`, over a state that holds the command's other writes. OBUF has 65555 bytes and
no command can overflow it (R13): an output that would is a fault of the model. -/
def emit (out : Bytes) (s : State) : Host.Outcome State Fault Refusal :=
  if out.length ≤ obufSize then .next (ok (s.setOutput out)) else .fault .obufOverflow

/-- `MemRead(IBUF, off, IBUF_LEN - off)`, the empty string for an offset past IBUF_LEN (R18, R199). No byte at
IBUF_LEN or above is read (R67). -/
def readInput (s : State) (off : Nat) : Option Bytes :=
  if off ≤ s.ibufLen then s.ibuf.readBytes off (s.ibufLen - off) else some []

/-- Runs a command on the bytes of IBUF from `off` on; an absent byte is a fault of the model (R18). -/
def withInput (s : State) (off : Nat) (run : Bytes → Host.Outcome State Fault Refusal) :
    Host.Outcome State Fault Refusal :=
  match readInput s off with
  | none => .fault .ibufByteAbsent
  | some bytes => run bytes

/-- What the host reads after a command: OBUF[0..OLEN) (R44). -/
def State.output (s : State) : Option Bytes := s.obuf.readBytes 0 s.olen.toNat

end Sys2Proof.Machine
end

