-- ==== Sys2Proof/Machine/AttributeCodec.lean ====
section
/-! DEFINITION. The TLV attribute codec and its four commands (42_attribute_codec.md). Decoding takes bytes apart by
matching on the byte string, so no read can fall outside it (R206). -/

namespace Sys2Proof.Machine

/-- The attribute type code of MappedAddress (30_encoding.md R96). -/
def mappedAddressType : BitVec 16 := 0x0001

/-! ### Encode -/

/-- EncodeValue (R190, R191). -/
def encodeValue (v : AttrValue) : Bytes :=
  match v with
  | .mappedAddress family port addr => [0x00, family] ++ bytes16 port ++ addr
  | .raw payload => payload

/-- EncodeAttribute: the TLV record (R192). -/
def encodeAttribute (a : Attribute) : Bytes :=
  bytes16 a.typeCode ++ bytes16 a.declaredLength ++ encodeValue a.value

/-- ENCODE_ATTRIBUTE (R193). -/
def execEncodeAttribute (s : State) : Host.Outcome State Fault Refusal :=
  match s.attr with
  | none => .next (raise .noAttribute s)
  | some a => emit (encodeAttribute a) s

/-! ### Decode -/

/-- The value length a valid family needs: 8 for family 1, else 20 (R196). -/
def familyLength (family : Byte) : Nat := if family = 0x01 then 8 else 20

/-- DecodeMappedAddress (R196). `v` holds the `dl` value bytes; where it is shorter than `dl` says, which no caller
lets happen, the answer is LengthMismatchError (log 13). The reserved byte is not read. -/
def decodeMappedAddress (dl : BitVec 16) (v : Bytes) : Except ErrorKind Attribute :=
  if dl.toNat < 2 then .error .lengthMismatch
  else
    match v with
    | _ :: family :: rest =>
      if family ≠ 0x01 ∧ family ≠ 0x02 then .error .invalidFamily
      else if dl.toNat ≠ familyLength family then .error .lengthMismatch
      else
        match rest with
        | p1 :: p0 :: addr =>
          .ok ⟨mappedAddressType, dl, .mappedAddress family (be16 p1 p0) (addr.take (familyLength family - 4))⟩
        | _ => .error .lengthMismatch
    | _ => .error .lengthMismatch

/-- DecodeRecord: the variant by type code (R195, R197; 30_encoding.md R96). -/
def decodeRecord (typeCode dl : BitVec 16) (v : Bytes) : Except ErrorKind Attribute :=
  if typeCode = mappedAddressType then decodeMappedAddress dl v
  else .ok ⟨typeCode, dl, .raw v⟩

/-- DecodeAttribute: one record from the start of a byte string, with the count of bytes used (R194, R198). -/
def decodeAttribute (bytes : Bytes) : Except ErrorKind (Attribute × Nat) :=
  match bytes with
  | t1 :: t0 :: l1 :: l0 :: rest =>
    let dl := be16 l1 l0
    if rest.length < dl.toNat then .error .truncatedValue
    else
      match decodeRecord (be16 t1 t0) dl (rest.take dl.toNat) with
      | .error e => .error e
      | .ok a => .ok (a, 4 + dl.toNat)
  | _ => .error .truncatedAttribute

/-- DECODE_ATTRIBUTE (R199). -/
def execDecodeAttribute (off : BitVec 16) (s : State) : Host.Outcome State Fault Refusal :=
  withInput s off.toNat fun bytes =>
    match decodeAttribute bytes with
    | .error e => .next (raise e s)
    | .ok (a, k) => .next (ok ((s.setAttr a).setConsumed (BitVec.ofNat 17 k)))

/-! ### Build -/

/-- BuildMappedAddress (R200). -/
def buildMappedAddress (text : Bytes) (port : BitVec 16) : Except ErrorKind Attribute :=
  match parseIp text with
  | none => .error .invalidAddress
  | some (.v4 a) => .ok ⟨mappedAddressType, 8, .mappedAddress 0x01 port a.toList⟩
  | some (.v6 a) => .ok ⟨mappedAddressType, 20, .mappedAddress 0x02 port a.toList⟩

/-- The state a build leaves: the attribute in ATTR, or the error (R201, R203). -/
def stageBuilt (built : Except ErrorKind Attribute) (s : State) : State :=
  match built with
  | .error e => raise e s
  | .ok a => ok (s.setAttr a)

/-- BUILD_MAPPED_ADDRESS: the text is IBUF[0..IBUF_LEN) (R201). -/
def execBuildMappedAddress (port : BitVec 16) (s : State) : Host.Outcome State Fault Refusal :=
  withInput s 0 fun text => .next (stageBuilt (buildMappedAddress text port) s)

/-- BuildRaw (R202). -/
def buildRaw (typeCode : BitVec 16) (payload : Bytes) : Except ErrorKind Attribute :=
  if typeCode = mappedAddressType then .error .invalidAttribute
  else if payload.length > 0xFFFF then .error .invalidAttribute
  else .ok ⟨typeCode, BitVec.ofNat 16 payload.length, .raw payload⟩

/-- BUILD_RAW: the payload is IBUF[0..IBUF_LEN) (R203). -/
def execBuildRaw (typeCode : BitVec 16) (s : State) : Host.Outcome State Fault Refusal :=
  withInput s 0 fun payload => .next (stageBuilt (buildRaw typeCode payload) s)

end Sys2Proof.Machine
end

