-- ==== Sys2Proof/Machine/TypeWord.lean ====
section
/-! DEFINITION. The type-word bit packer and its two commands (40_type_word.md). -/

namespace Sys2Proof.Machine

/-- PackType (R130). -/
def packType (method : BitVec 12) (cls : BitVec 2) : BitVec 16 :=
  let m := zext 16 method
  let c := zext 16 cls
  (m &&& 0x000F) ||| ((c &&& 0b01) <<< 4) ||| ((m &&& 0x0070) <<< 1) ||| ((c &&& 0b10) <<< 7)
    ||| ((m &&& 0x0F80) <<< 2)

/-- The method UnpackType gives (R134). -/
def unpackMethod (w : BitVec 16) : BitVec 12 :=
  ((w &&& 0x000F) ||| ((w >>> 1) &&& 0x0070) ||| ((w >>> 2) &&& 0x0F80)).setWidth 12

/-- The class UnpackType gives (R134). Word bits 15:14 are not read. -/
def unpackClass (w : BitVec 16) : BitVec 2 :=
  (((w >>> 4) &&& 0b01) ||| ((w >>> 7) &&& 0b10)).setWidth 2

/-- PACK_TYPE (R137). -/
def execPackType (method : BitVec 12) (cls : BitVec 2) (s : State) : Host.Outcome State Fault Refusal :=
  emit (bytes16 (packType method cls)) s

/-- UNPACK_TYPE (R138). -/
def execUnpackType (word : BitVec 16) (s : State) : Host.Outcome State Fault Refusal :=
  emit (bytes16 (zext 16 (unpackMethod word)) ++ [zext 8 (unpackClass word)]) s

end Sys2Proof.Machine
end

