-- ==== Sys2Proof/Machine/MessageCodec.lean ====
section
/-! DEFINITION. The message codec and its four commands (41_message_codec.md). -/

namespace Sys2Proof.Machine

/-- The magic cookie `21 12 A4 42` (30_encoding.md R100). -/
def magicCookie : Cookie := #v[0x21, 0x12, 0xA4, 0x42]

/-! ### Construct -/

/-- Construct (R150); `draw` is the one answer of ENT. -/
def construct (method : BitVec 12) (cls : BitVec 2) (draw : Option Txid) : Except ErrorKind Message :=
  match draw with
  | none => .error .randomness
  | some t => .ok ⟨.building, method, cls, 0, magicCookie, t, []⟩

/-- The state that replacing the slot leaves: the new message, or the error (R151, R165). -/
def replaceMsg (made : Except ErrorKind Message) (s : State) : State :=
  match made with
  | .error e => raise e s
  | .ok m => ok (s.setMsg m)

/-- CONSTRUCT (R151). -/
def execConstruct (method : BitVec 12) (cls : BitVec 2) (s : State) : Host.Outcome State Fault Refusal :=
  .next (replaceMsg (construct method cls s.ent) s)

/-! ### AddAttribute -/

/-- The length an append gives, exactly `length + 4 + declared_length` (R154, R155). The spec calls the sum 17 bits
wide; the exact sum is taken, since 65535 + 4 + 65535 needs 18 (R156; log 9). -/
def appendedLength (m : Message) (a : Attribute) : Nat := m.length.toNat + 4 + a.declaredLength.toNat

/-- AddAttribute (R154, R155, R156). -/
def addAttribute (m : Message) (a : Attribute) : Except ErrorKind Message :=
  if appendedLength m a > 0xFFFF then .error .lengthOverflow
  else .ok { m with attrs := m.attrs ++ [a], length := BitVec.ofNat 16 (appendedLength m a) }

/-- ADD_ATTRIBUTE (R157). ATTR stays as it is. -/
def execAddAttribute (s : State) : Host.Outcome State Fault Refusal :=
  match s.msg with
  | none => .next (raise .noMessage s)
  | some m =>
    if m.state ≠ .building then .next (raise .notMutable s)
    else
      match s.attr with
      | none => .next (raise .noAttribute s)
      | some a => .next (replaceMsg (addAttribute m a) s)

/-! ### Serialize -/

/-- Serialize (R158, R133): header fields, then the records in sequence order. -/
def serialize (m : Message) : Bytes :=
  bytes16 (packType m.method m.cls) ++ bytes16 m.length ++ m.cookie.toList ++ m.txid.toList
    ++ m.attrs.flatMap encodeAttribute

/-- The message after SERIALIZE: BUILDING becomes SEALED, nothing else changes (R160). -/
def sealMessage (m : Message) : Message :=
  if m.state = .building then { m with state := .sealed } else m

/-- SERIALIZE (R160). -/
def execSerialize (s : State) : Host.Outcome State Fault Refusal :=
  match s.msg with
  | none => .next (raise .noMessage s)
  | some m => emit (serialize m) (s.setMsg (sealMessage m))

/-! ### Deserialize -/

/-- The passes the attribute loop may take: "at most 16384" (70_reset_and_hazards.md R288; log 10). -/
def maxPasses : Nat := 16384

/-- The attribute loop (R163). `rest` is b[off..n), `left` is L - used, `attrs` the attributes so far. Each pass uses at
least 4 of `left`, so 16384 passes always reach the end of a body of at most 65535 bytes. -/
def deserializeAttrs : (passes : Nat) → (rest : Bytes) → (left : Nat) → (attrs : List Attribute) →
    Except ErrorKind (List Attribute)
  | 0, _, left, attrs => if left = 0 then .ok attrs else .error .truncatedAttribute
  | passes + 1, rest, left, attrs =>
    if left = 0 then .ok attrs
    else
      let avail := min rest.length left
      if avail < 4 then .error .truncatedAttribute
      else
        match rest with
        | t1 :: t0 :: l1 :: l0 :: tail =>
          let dl := be16 l1 l0
          if avail < 4 + dl.toNat then .error .truncatedAttribute
          else
            match decodeRecord (be16 t1 t0) dl (tail.take dl.toNat) with
            | .error e => .error e
            | .ok a => deserializeAttrs passes (tail.drop dl.toNat) (left - (4 + dl.toNat)) (attrs ++ [a])
        | _ => .error .truncatedAttribute

/-- Deserialize (R161, R162, R163). Fewer than 20 bytes are no header; bytes after the body are not kept (R164). -/
def deserialize (b : Bytes) : Except ErrorKind Message :=
  match b with
  | w1 :: w0 :: l1 :: l0 :: c0 :: c1 :: c2 :: c3 :: t0 :: t1 :: t2 :: t3 :: t4 :: t5 :: t6 :: t7 :: t8 :: t9 :: t10
      :: t11 :: body =>
    let w := be16 w1 w0
    let len := be16 l1 l0
    match deserializeAttrs maxPasses body len.toNat [] with
    | .error e => .error e
    | .ok attrs =>
      .ok ⟨.decoded, unpackMethod w, unpackClass w, len, #v[c0, c1, c2, c3],
        #v[t0, t1, t2, t3, t4, t5, t6, t7, t8, t9, t10, t11], attrs⟩
  | _ => .error .truncatedHeader

/-- DESERIALIZE (R165). -/
def execDeserialize (s : State) : Host.Outcome State Fault Refusal :=
  withInput s 0 fun bytes => .next (replaceMsg (deserialize bytes) s)

end Sys2Proof.Machine
end

