-- ==== Sys2Proof/Machine/RegisterAccess.lean ====
section
/-! DEFINITION. Register access: LOAD_ATTR, READ, and a word that is no instruction (43_register_access.md). -/

namespace Sys2Proof.Machine

/-- LOAD_ATTR (R230). -/
def execLoadAttr (index : BitVec 14) (s : State) : Host.Outcome State Fault Refusal :=
  match s.msg with
  | none => .next (raise .noMessage s)
  | some m =>
    match m.attrs[index.toNat]? with
    | none => .next (raise .noAttribute s)
    | some a => .next (ok (s.setAttr a))

/-- A field of the message, or NoMessageError while MSG is EMPTY (R232). -/
def readMsg (s : State) (field : Message → Bytes) : Except ErrorKind Bytes :=
  match s.msg with
  | none => .error .noMessage
  | some m => .ok (field m)

/-- A field of the staged attribute, NoAttributeError while ATTR is invalid, NoFieldError where the variant lacks the
field (R233). -/
def readAttr (s : State) (field : Attribute → Option Bytes) : Except ErrorKind Bytes :=
  match s.attr with
  | none => .error .noAttribute
  | some a =>
    match field a with
    | none => .error .noField
    | some bytes => .ok bytes

/-- ReadField (R232, R233, R234). -/
def readField (sel : Selector) (s : State) : Except ErrorKind Bytes :=
  match sel with
  | .msgState => .ok [zext 8 s.msgStateCode]
  | .method => readMsg s fun m => bytes16 (zext 16 m.method)
  | .cls => readMsg s fun m => [zext 8 m.cls]
  | .length => readMsg s fun m => bytes16 m.length
  | .cookie => readMsg s fun m => m.cookie.toList
  | .txid => readMsg s fun m => m.txid.toList
  | .attrCount => readMsg s fun m => bytes16 (BitVec.ofNat 16 m.attrs.length)
  | .attrKind => readAttr s fun a =>
      match a.value with
      | .mappedAddress _ _ _ => some [0x00]
      | .raw _ => some [0x01]
  | .attrType => readAttr s fun a => some (bytes16 a.typeCode)
  | .attrDlen => readAttr s fun a => some (bytes16 a.declaredLength)
  | .attrFamily => readAttr s fun a =>
      match a.value with
      | .mappedAddress family _ _ => some [family]
      | .raw _ => none
  | .attrPort => readAttr s fun a =>
      match a.value with
      | .mappedAddress _ port _ => some (bytes16 port)
      | .raw _ => none
  | .attrAddr => readAttr s fun a =>
      match a.value with
      | .mappedAddress _ _ addr => some addr
      | .raw _ => none
  | .attrPayload => readAttr s fun a =>
      match a.value with
      | .mappedAddress _ _ _ => none
      | .raw payload => some payload
  | .consumed =>
    match s.consumed with
    | none => .error .noField
    | some k => .ok (bytes32 (zext 32 k))

/-- READ (R231). An unknown selector is an illegal word (R108, R235). -/
def execRead (field : BitVec 6) (s : State) : Host.Outcome State Fault Refusal :=
  match selectorOf field with
  | none => .next (raise .illegalCommand s)
  | some sel =>
    match readField sel s with
    | .error e => .next (raise e s)
    | .ok out => emit out s

/-- A word that the decoder refuses raises IllegalCommandError and changes nothing else (R106, R107, R235). -/
def rejectWord (s : State) : Host.Outcome State Fault Refusal := .next (raise .illegalCommand s)

end Sys2Proof.Machine
end

