-- ==== Sys2Proof/Machine/Dispatch.lean ====
section
/-! DEFINITION. One arm for each instruction: a direct call of its meaning. -/

namespace Sys2Proof.Machine

def exec (i : Instr) (s : State) : Host.Outcome State Fault Refusal :=
  match i with
  | .construct method cls => Sys2Proof.Machine.execConstruct method cls s
  | .addAttribute => Sys2Proof.Machine.execAddAttribute s
  | .serialize => Sys2Proof.Machine.execSerialize s
  | .deserialize => Sys2Proof.Machine.execDeserialize s
  | .encodeAttribute => Sys2Proof.Machine.execEncodeAttribute s
  | .decodeAttribute off => Sys2Proof.Machine.execDecodeAttribute off s
  | .buildMappedAddress port => Sys2Proof.Machine.execBuildMappedAddress port s
  | .buildRaw typeCode => Sys2Proof.Machine.execBuildRaw typeCode s
  | .loadAttr index => Sys2Proof.Machine.execLoadAttr index s
  | .packType method cls => Sys2Proof.Machine.execPackType method cls s
  | .unpackType word => Sys2Proof.Machine.execUnpackType word s
  | .read field => Sys2Proof.Machine.execRead field s

end Sys2Proof.Machine
end

