-- ==== Sys2Proof/WellFormed.lean ====
section
/-! DEFINITION. Which instructions are well-formed. Every operand field has exactly its width (30_encoding.md R112), so
the one check left is READ's selector: it must be one that R108 lists. -/

namespace Sys2Proof

/-- The selectors R108 lists, as the 6-bit values of the word. -/
def knownSelectors : List (BitVec 6) :=
  [0x01, 0x02, 0x03, 0x04, 0x05, 0x06, 0x07, 0x10, 0x11, 0x12, 0x13, 0x14, 0x15, 0x16, 0x20]

/-- An instruction is well-formed when its word is a legal one (R108, R235). -/
def Instr.wellFormed (i : Instr) : Bool :=
  match i with
  | .construct _ _ => true
  | .addAttribute => true
  | .serialize => true
  | .deserialize => true
  | .encodeAttribute => true
  | .decodeAttribute _ => true
  | .buildMappedAddress _ => true
  | .buildRaw _ => true
  | .loadAttr _ => true
  | .packType _ _ => true
  | .unpackType _ => true
  | .read field => knownSelectors.contains field

end Sys2Proof
end

