-- ==== Sys2Proof/Decode.lean ====
section
/-! DEFINITION. Decoding a command word and encoding an instruction (30_encoding.md R103 to R107, R112). A word comes on
the 32-bit CMD port as one number, so no byte order enters (log 12). -/

namespace Sys2Proof

/-- Why a word is no instruction (R106, R107). Either way the block raises IllegalCommandError (R235). -/
inductive DecodeError where
  /-- OP is not in the opcode map (R107). -/
  | unassignedOpcode
  /-- OP is assigned and a reserved bit is not 0 (R106). -/
  | reservedBits
  deriving DecidableEq, Repr

/-- OP, bits 7:0 of the word (R103). -/
def opcodeField (w : CmdWord) : BitVec 8 := w.extractLsb' 0 8

/-- The 12-bit method, bits 19:8 of the word (R105). -/
def methodField (w : CmdWord) : BitVec 12 := w.extractLsb' 8 12

/-- The 2-bit class, bits 21:20 of the word (R105). -/
def classField (w : CmdWord) : BitVec 2 := w.extractLsb' 20 2

/-- A 16-bit operand, bits 23:8 of the word (R105). -/
def half16Field (w : CmdWord) : BitVec 16 := w.extractLsb' 8 16

/-- The 14-bit attribute index, bits 21:8 of the word (R105). -/
def indexField (w : CmdWord) : BitVec 14 := w.extractLsb' 8 14

/-- The 6-bit field selector, bits 13:8 of the word (R105). -/
def selectorField (w : CmdWord) : BitVec 6 := w.extractLsb' 8 6

/-- The instruction, if the reserved bits (all bits of the word from `lo` up) are 0 (R106). -/
def checkReserved (lo : Nat) (w : CmdWord) (i : Instr) : Except DecodeError Instr :=
  if w >>> lo = 0 then .ok i else .error .reservedBits

/-- The decoder: total on 32-bit words (R104, R105). An unknown READ selector is still the READ row of the table; its
meaning raises the error (R231, R235; log 11). -/
def decode (w : CmdWord) : Except DecodeError Instr :=
  match opcodeField w with
  | 0x01#8 => checkReserved 22 w (.construct (methodField w) (classField w))
  | 0x02#8 => checkReserved 8 w .addAttribute
  | 0x03#8 => checkReserved 8 w .serialize
  | 0x04#8 => checkReserved 8 w .deserialize
  | 0x10#8 => checkReserved 8 w .encodeAttribute
  | 0x11#8 => checkReserved 24 w (.decodeAttribute (half16Field w))
  | 0x12#8 => checkReserved 24 w (.buildMappedAddress (half16Field w))
  | 0x13#8 => checkReserved 24 w (.buildRaw (half16Field w))
  | 0x14#8 => checkReserved 22 w (.loadAttr (indexField w))
  | 0x20#8 => checkReserved 22 w (.packType (methodField w) (classField w))
  | 0x21#8 => checkReserved 24 w (.unpackType (half16Field w))
  | 0x30#8 => checkReserved 14 w (.read (selectorField w))
  | _ => .error .unassignedOpcode

/-- An operand placed with its bit 0 at bit `lo` of the word, zeros elsewhere (R105). -/
def place {n : Nat} (lo : Nat) (v : BitVec n) : CmdWord := v.setWidth 32 <<< lo

/-- The encoder: the operands at their places in the patterns of R105, OP in bits 7:0, every other bit 0. -/
def encode (i : Instr) : CmdWord :=
  match i with
  | .construct method cls => place 20 cls ||| place 8 method ||| 0x01#32
  | .addAttribute => 0x02#32
  | .serialize => 0x03#32
  | .deserialize => 0x04#32
  | .encodeAttribute => 0x10#32
  | .decodeAttribute off => place 8 off ||| 0x11#32
  | .buildMappedAddress port => place 8 port ||| 0x12#32
  | .buildRaw typeCode => place 8 typeCode ||| 0x13#32
  | .loadAttr index => place 8 index ||| 0x14#32
  | .packType method cls => place 20 cls ||| place 8 method ||| 0x20#32
  | .unpackType word => place 8 word ||| 0x21#32
  | .read field => place 8 field ||| 0x30#32

/-- The opcode an instruction is assigned (R104). -/
def opcodeOf (i : Instr) : BitVec 8 :=
  match i with
  | .construct _ _ => 0x01
  | .addAttribute => 0x02
  | .serialize => 0x03
  | .deserialize => 0x04
  | .encodeAttribute => 0x10
  | .decodeAttribute _ => 0x11
  | .buildMappedAddress _ => 0x12
  | .buildRaw _ => 0x13
  | .loadAttr _ => 0x14
  | .packType _ _ => 0x20
  | .unpackType _ => 0x21
  | .read _ => 0x30

/-- The opcode table as (mask, match) rows: a word is an instruction of the row when the masked word is the match
(R105 and spec/opcode_table.json). -/
def opcodeRows : List (CmdWord × CmdWord) :=
  [(0xFFC000FF, 0x01), (0xFFFFFFFF, 0x02), (0xFFFFFFFF, 0x03), (0xFFFFFFFF, 0x04), (0xFFFFFFFF, 0x10),
   (0xFF0000FF, 0x11), (0xFF0000FF, 0x12), (0xFF0000FF, 0x13), (0xFFC000FF, 0x14), (0xFFC000FF, 0x20),
   (0xFF0000FF, 0x21), (0xFFFFC0FF, 0x30)]

/-- The instruction the decoder reads from the word `w` of `nbits` bits, bits above `nbits` being 0. Every command word
is 32 bits, so a longer row is none (R103; log 12). -/
def decodeTableWord (nbits w : Nat) : Option Instr :=
  if nbits ≤ 32 then
    match decode (BitVec.ofNat 32 (w % 2 ^ nbits)) with
    | .ok i => some i
    | .error _ => none
  else none

end Sys2Proof
end

