-- ==== Sys2Proof/Machine/HostPort.lean ====
section
/-! DEFINITION. The host's side of the block: loading IBUF, asserting RST, presenting a command word (10_state.md R41,
R44, R45; 70_reset_and_hazards.md R280, R281). Step.lean only calls these. -/

namespace Sys2Proof.Machine

/-- Load input (R44): the bytes go to IBUF[0..n), IBUF_LEN becomes n. The host must keep n at most IBUF_MAX; a load that
does not is refused (log 8). No register of the block changes, STATUS included. -/
def loadInput (bytes : Bytes) (s : State) : Host.Outcome State Fault Refusal :=
  if bytes.length ≤ s.ibufMax then .next (s.setInput bytes) else .refused .hostOverfillsIbuf

/-- Assert RST (R280): every piece of state of R45 takes its reset value. The parameter IBUF_MAX, the entropy port and
the host's further actions are no state of R45 and stay (log 14). -/
def assertReset (s : State) : State :=
  { State.reset with ibufMax := s.ibufMax, ent := s.ent, host := s.host }

/-- The state a command starts from: its word is taken off the host's list and its ENT answer stands on the port
(R15, R41, R42). -/
def present (draw : Option Txid) (rest : List HostAction) (s : State) : State := (s.setHost rest).setEnt draw

/-- The instruction on CMD, or none if the word is illegal (R235). -/
def fetch (w : CmdWord) : Option Instr :=
  match decode w with
  | .ok i => some i
  | .error _ => none

/-- With no action pending the block waits for a command on CMD (R281): nothing changes (log 1). -/
def idle (s : State) : Host.Outcome State Fault Refusal := .next s

/-- The command action that presents the low `nbits` bits of `w`, with the answer now on ENT. -/
def fetchAction (s : State) (nbits w : Nat) : HostAction :=
  .command (BitVec.ofNat 32 (w % 2 ^ nbits)) s.ent

end Sys2Proof.Machine
end

