-- ==== Sys2Proof/Machine/Step.lean ====
section
/-! DEFINITION. One step: the host's next action (10_state.md R20, R21, R22; 70_reset_and_hazards.md R289). A command is
one atomic step. There is no program counter. -/

namespace Sys2Proof.Machine

/-- Takes the host's oldest pending action; with none pending the block waits (R281). -/
def step (s : State) : Host.Outcome State Fault Refusal :=
  match s.host with
  | [] => idle s
  | .loadInput bytes :: rest => loadInput bytes (s.setHost rest)
  | .assertReset :: rest => .next (assertReset (s.setHost rest))
  | .command w draw :: rest =>
    match fetch w with
    | none => rejectWord (present draw rest s)
    | some i => exec i (present draw rest s)

/-- `s` with the word presented as the host's very next action, its ENT answer the one now on the port (log 1). -/
def State.withFetchWord (s : State) (nbits w : Nat) : State :=
  s.setHost (fetchAction s nbits w :: s.host)

end Sys2Proof.Machine
end

