-- ==== Sys2Proof/Machine/Assembly.lean ====
section
/-! DEFINITION. The written form of a command and the four pseudo-commands (30_encoding.md R98, R99, R110, R111). No
step reads it: the block sees words only ("syntax has no semantics", 92_eei_decisions.md D31). -/

namespace Sys2Proof.Machine

/-! ### Named operand values -/

/-- The method binding (R99). -/
def bindingMethod : BitVec 12 := 0x001

/-- The four classes by name (R98). -/
def classRequest : BitVec 2 := 0

def classIndication : BitVec 2 := 1

def classSuccess : BitVec 2 := 2

def classError : BitVec 2 := 3

/-- The pseudo-commands, each one real command (R111). -/
def pseudoCommands : List (String × Instr) :=
  [("NEW_BINDING_REQUEST", .construct bindingMethod classRequest),
   ("NEW_BINDING_INDICATION", .construct bindingMethod classIndication),
   ("NEW_BINDING_SUCCESS", .construct bindingMethod classSuccess),
   ("NEW_BINDING_ERROR", .construct bindingMethod classError)]

/-- The selector names of R108. -/
def selectorNames : List (String × Selector) :=
  [("MSG_STATE", .msgState), ("METHOD", .method), ("CLASS", .cls), ("LENGTH", .length), ("COOKIE", .cookie),
   ("TXID", .txid), ("ATTR_COUNT", .attrCount), ("ATTR_KIND", .attrKind), ("ATTR_TYPE", .attrType),
   ("ATTR_DLEN", .attrDlen), ("ATTR_FAMILY", .attrFamily), ("ATTR_PORT", .attrPort), ("ATTR_ADDR", .attrAddr),
   ("ATTR_PAYLOAD", .attrPayload), ("CONSUMED", .consumed)]

/-! ### Characters -/

/-- The entry of a table whose name is spelt by the characters. -/
def named {α : Type} (table : List (String × α)) (name : List Char) : Option α :=
  match table.find? fun row => row.1.toList == name with
  | none => none
  | some row => some row.2

def isBlank (c : Char) : Bool := c == ' ' || c == '\t'

/-- Drops blanks at both ends (log 15). -/
def trimBlanks (cs : List Char) : List Char := ((cs.dropWhile isBlank).reverse.dropWhile isBlank).reverse

/-- The pieces between the separators. -/
def splitAtChar (sep : Char) : List Char → List (List Char)
  | [] => [[]]
  | c :: rest =>
    if c = sep then [] :: splitAtChar sep rest
    else
      match splitAtChar sep rest with
      | [] => [[c]]
      | piece :: pieces => (c :: piece) :: pieces

/-- A digit's value, hex digits in either case (log 15). -/
def digitValue (c : Char) : Nat :=
  if '0' ≤ c ∧ c ≤ '9' then c.toNat - '0'.toNat
  else if 'a' ≤ c ∧ c ≤ 'f' then c.toNat - 'a'.toNat + 10
  else if 'A' ≤ c ∧ c ≤ 'F' then c.toNat - 'A'.toNat + 10
  else 16

/-- The number a digit string spells, most significant digit first, after `acc`. -/
def digitsValue (base : Nat) : (acc : Nat) → List Char → Option Nat
  | acc, [] => some acc
  | acc, c :: rest => if digitValue c < base then digitsValue base (base * acc + digitValue c) rest else none

/-- A value, "hex with `0x` or decimal" (R110). -/
def numberOf (cs : List Char) : Option Nat :=
  match cs with
  | '0' :: 'x' :: c :: rest => digitsValue 16 0 (c :: rest)
  | c :: rest => digitsValue 10 0 (c :: rest)
  | [] => none

/-- An operand value of exactly `width` bits; a larger number is no operand (R112). -/
def operandValue (width : Nat) (cs : List Char) : Option (BitVec width) :=
  match numberOf cs with
  | none => none
  | some n => if n < 2 ^ width then some (BitVec.ofNat width n) else none

/-- The value part of `name=value`. -/
def operandText (name : String) (part : List Char) : Option (List Char) :=
  match splitAtChar '=' part with
  | [n, v] => if trimBlanks n = name.toList then some (trimBlanks v) else none
  | _ => none

/-- A named operand's value (R110). -/
def operand (name : String) (width : Nat) (part : List Char) : Option (BitVec width) :=
  match operandText name part with
  | none => none
  | some v => operandValue width v

/-- READ's operand: a selector by its name or its number (R110). -/
def fieldOperand (part : List Char) : Option (BitVec 6) :=
  match operandText "field" part with
  | none => none
  | some v =>
    match named selectorNames v with
    | some sel => some (selectorBits sel)
    | none => operandValue 6 v

/-! ### Commands -/

/-- The two operands of CONSTRUCT and PACK_TYPE, in the field order of R105. -/
def methodClassOperands (parts : List (List Char)) (make : BitVec 12 → BitVec 2 → Instr) : Option Instr :=
  match parts with
  | [p, q] =>
    match operand "method" 12 p, operand "class" 2 q with
    | some m, some c => some (make m c)
    | _, _ => none
  | _ => none

/-- One operand named `name`. -/
def oneOperand (name : String) (width : Nat) (parts : List (List Char)) (make : BitVec width → Instr) : Option Instr :=
  match parts with
  | [p] =>
    match operand name width p with
    | some v => some (make v)
    | none => none
  | _ => none

/-- A bare mnemonic. -/
def noOperands (parts : List (List Char)) (i : Instr) : Option Instr :=
  match parts with
  | [] => some i
  | _ => none

/-- The command a mnemonic and its operand parts stand for (R105, R110). -/
def commandOf (mnemonic : List Char) (parts : List (List Char)) : Option Instr :=
  if mnemonic = "CONSTRUCT".toList then methodClassOperands parts .construct
  else if mnemonic = "ADD_ATTRIBUTE".toList then noOperands parts .addAttribute
  else if mnemonic = "SERIALIZE".toList then noOperands parts .serialize
  else if mnemonic = "DESERIALIZE".toList then noOperands parts .deserialize
  else if mnemonic = "ENCODE_ATTRIBUTE".toList then noOperands parts .encodeAttribute
  else if mnemonic = "DECODE_ATTRIBUTE".toList then oneOperand "off" 16 parts .decodeAttribute
  else if mnemonic = "BUILD_MAPPED_ADDRESS".toList then oneOperand "port" 16 parts .buildMappedAddress
  else if mnemonic = "BUILD_RAW".toList then oneOperand "type" 16 parts .buildRaw
  else if mnemonic = "LOAD_ATTR".toList then oneOperand "index" 14 parts .loadAttr
  else if mnemonic = "PACK_TYPE".toList then methodClassOperands parts .packType
  else if mnemonic = "UNPACK_TYPE".toList then oneOperand "word" 16 parts .unpackType
  else if mnemonic = "READ".toList then
    match parts with
    | [p] =>
      match fieldOperand p with
      | some f => some (.read f)
      | none => none
    | _ => none
  else
    match parts, named pseudoCommands mnemonic with
    | [], some i => some i
    | _, _ => none

/-- The command text of a line: what stands before a `;`, without outer blanks (R110). -/
def commandText (line : List Char) : List Char := trimBlanks (line.takeWhile fun c => c != ';')

/-- One line: `some none` where it holds no command, `none` where it is not of the form of R110. -/
def assembleLine (line : List Char) : Option (Option Instr) :=
  let text := commandText line
  if text = [] then some none
  else
    let mnemonic := text.takeWhile fun c => !isBlank c
    let operands := trimBlanks (text.dropWhile fun c => !isBlank c)
    match commandOf mnemonic (if operands = [] then [] else splitAtChar ',' operands) with
    | none => none
    | some i => some (some i)

/-- The commands of the lines, in order; `none` if a line is not of the form of R110. -/
def assembleLines : List (List Char) → Option (List Instr)
  | [] => some []
  | line :: rest =>
    match assembleLine line, assembleLines rest with
    | some none, some is => some is
    | some (some i), some is => some (i :: is)
    | _, _ => none

/-- A program text, one command a line (R110). -/
def assemble (source : String) : Option (List Instr) := assembleLines (splitAtChar '\n' source.toList)

end Sys2Proof.Machine
end

