-- ==== Sys2Proof/Safety.lean ====
section
/-! DEFINITION. What counts as a safe state and a safe run, in the terms the claims use: well-formed attributes and
messages (10_state.md R34, R35), the invariant, the host's duty, the observation of a run (70_reset_and_hazards.md
R289), which errors a command may raise (60_exceptions.md R250, R254), and the spec's index-based decoding pseudocode
(R163, R194, R196) as a second transcription to hold the machine against. -/

namespace Sys2Proof

open Sys2Proof.Machine

/-! ### Well-formed data -/

/-- WF_ATTR (R34). -/
def AttrWf (a : Attribute) : Prop :=
  match a.value with
  | .mappedAddress family _ addr =>
    a.typeCode = 0x0001 ∧
      ((family = 0x01 ∧ addr.length = 4 ∧ a.declaredLength = 8) ∨
        (family = 0x02 ∧ addr.length = 16 ∧ a.declaredLength = 20))
  | .raw payload => a.typeCode ≠ 0x0001 ∧ a.declaredLength.toNat = payload.length

/-- `sum over a in attrs of (4 + a.declared_length)` (R35). -/
def attrsLength (attrs : List Attribute) : Nat := (attrs.map fun a => 4 + a.declaredLength.toNat).sum

/-- WF_MSG of a slot that is not EMPTY (R35). That the sum is at most 65535 follows from the 16 bits of the length. -/
structure MsgWf (m : Message) : Prop where
  attrs : ∀ a ∈ m.attrs, AttrWf a
  length : m.length.toNat = attrsLength m.attrs
  cookie : m.state ≠ .decoded → m.cookie = #v[0x21, 0x12, 0xA4, 0x42]

/-- A buffer of `cap` bytes whose first `valid` bytes hold a value (R39, R40). -/
structure BufferWf (m : Memory) (valid cap : Nat) : Prop where
  canonical : m.wf
  bounded : ∀ c ∈ m, c.1 < cap
  covered : ∀ a, a < valid → (m.read a).isSome
  fits : valid ≤ cap

/-- The invariant of the block: R34, R35, R37, R39, R40, and "Code 15 is never written" (R250). -/
structure Inv (s : State) : Prop where
  msg : ∀ m, s.msg = some m → MsgWf m
  attr : ∀ a, s.attr = some a → AttrWf a
  consumed : ∀ k, s.consumed = some k → 4 ≤ k.toNat ∧ k.toNat ≤ 65539
  status : s.status ≠ 15
  obuf : BufferWf s.obuf s.olen.toNat 65555
  ibuf : BufferWf s.ibuf s.ibufLen s.ibufMax

/-- The host's duty on every load still to come: "keep n <= IBUF_MAX" (R44). -/
def HostLegal (s : State) : Prop :=
  ∀ bytes, HostAction.loadInput bytes ∈ s.host → bytes.length ≤ s.ibufMax

/-! ### What the host sees -/

/-- Every selector of READ (R108). -/
def allSelectors : List Selector :=
  [.msgState, .method, .cls, .length, .cookie, .txid, .attrCount, .attrKind, .attrType, .attrDlen, .attrFamily,
   .attrPort, .attrAddr, .attrPayload, .consumed]

/-- "STATUS, OBUF[0..OLEN), OLEN, and the READ-visible fields of MSG, ATTR and CONSUMED" (R289). -/
structure Observation where
  status : BitVec 4
  output : Option Bytes
  olen : BitVec 17
  fields : List (Except ErrorKind Bytes)

/-- The observation a claim may read (R289). -/
def observe (s : State) : Observation :=
  ⟨s.status, s.output, s.olen, allSelectors.map fun sel => readField sel s⟩

/-- Two states that differ at most in bytes the spec gives no value for: bytes of OBUF at OLEN or above and bytes of
IBUF at IBUF_LEN or above (R39, R43). -/
structure SameValid (s t : State) : Prop where
  msg : s.msg = t.msg
  attr : s.attr = t.attr
  consumed : s.consumed = t.consumed
  status : s.status = t.status
  olen : s.olen = t.olen
  obuf : ∀ a, a < s.olen.toNat → s.obuf.read a = t.obuf.read a
  ibufLen : s.ibufLen = t.ibufLen
  ibuf : ∀ a, a < s.ibufLen → s.ibuf.read a = t.ibuf.read a
  ibufMax : s.ibufMax = t.ibufMax
  ent : s.ent = t.ent
  host : s.host = t.host

/-- `t` is `s` after a successful `MemWrite(OBUF, out)`, as far as OBUF, OLEN and STATUS go: the host reads `out`, and
every byte of OBUF past it is as before, since R18 names indices below `|out|` only (log 7). -/
structure WritesOutput (s t : State) (out : Bytes) : Prop where
  output : t.output = some out
  olen : t.olen.toNat = out.length
  status : t.status = 0
  above : ∀ a, out.length ≤ a → t.obuf.read a = s.obuf.read a

/-- The message indices of the reserved bytes of MappedAddress values, in a message whose attributes start at `off`:
byte 4 of each such record (R94, R167). -/
def reservedIndices : (off : Nat) → List Attribute → List Nat
  | _, [] => []
  | off, a :: rest =>
    match a.value with
    | .mappedAddress _ _ _ => (off + 4) :: reservedIndices (off + 4 + a.declaredLength.toNat) rest
    | .raw _ => reservedIndices (off + 4 + a.declaredLength.toNat) rest

/-! ### Errors -/

/-- The errors the table of R250 lets a command's meaning raise (IllegalCommandError of its word apart, which only READ's
meaning can raise: R231). -/
def mayRaise (i : Instr) : List ErrorKind :=
  match i with
  | .construct _ _ => [.randomness]
  | .addAttribute => [.noMessage, .notMutable, .noAttribute, .lengthOverflow]
  | .serialize => [.noMessage]
  | .deserialize => [.truncatedHeader, .truncatedAttribute, .lengthMismatch, .invalidFamily]
  | .encodeAttribute => [.noAttribute]
  | .decodeAttribute _ => [.truncatedAttribute, .truncatedValue, .lengthMismatch, .invalidFamily]
  | .buildMappedAddress _ => [.invalidAddress]
  | .buildRaw _ => [.invalidAttribute]
  | .loadAttr _ => [.noMessage, .noAttribute]
  | .packType _ _ => []
  | .unpackType _ => []
  | .read _ => [.illegalCommand, .noMessage, .noAttribute, .noField]

/-- The five commands that write OBUF and OLEN (R23, R284). -/
def writesObuf (i : Instr) : Bool :=
  match i with
  | .serialize => true
  | .encodeAttribute => true
  | .packType _ _ => true
  | .unpackType _ => true
  | .read _ => true
  | .construct _ _ => false
  | .addAttribute => false
  | .deserialize => false
  | .decodeAttribute _ => false
  | .buildMappedAddress _ => false
  | .buildRaw _ => false
  | .loadAttr _ => false

/-- The four commands that write ATTR (R23, R285). -/
def writesAttr (i : Instr) : Bool :=
  match i with
  | .buildMappedAddress _ => true
  | .buildRaw _ => true
  | .decodeAttribute _ => true
  | .loadAttr _ => true
  | .construct _ _ => false
  | .addAttribute => false
  | .serialize => false
  | .deserialize => false
  | .encodeAttribute => false
  | .packType _ _ => false
  | .unpackType _ => false
  | .read _ => false

/-! ### The spec's pseudocode over indices -/

/-- `s[i]`, used only below `|s|`. -/
def byteAt (s : Bytes) (i : Nat) : Byte := s.getD i 0

/-- `be16(s, i)` (R17). -/
def be16At (s : Bytes) (i : Nat) : BitVec 16 := be16 (byteAt s i) (byteAt s (i + 1))

/-- `s[a..b)` (R17). -/
def slice (s : Bytes) (a b : Nat) : Bytes := (s.drop a).take (b - a)

/-- DecodeMappedAddress as R196 writes it. -/
def refDecodeMappedAddress (dl : BitVec 16) (v : Bytes) : Except ErrorKind Attribute :=
  if dl.toNat < 2 then .error .lengthMismatch
  else if byteAt v 1 ≠ 0x01 ∧ byteAt v 1 ≠ 0x02 then .error .invalidFamily
  else if dl.toNat ≠ (if byteAt v 1 = 0x01 then 8 else 20) then .error .lengthMismatch
  else .ok ⟨0x0001, dl, .mappedAddress (byteAt v 1) (be16At v 2) (slice v 4 (if byteAt v 1 = 0x01 then 8 else 20))⟩

/-- DecodeRecord as R195 writes it. -/
def refDecodeRecord (typeCode dl : BitVec 16) (v : Bytes) : Except ErrorKind Attribute :=
  if typeCode = 0x0001 then refDecodeMappedAddress dl v else .ok ⟨typeCode, dl, .raw v⟩

/-- DecodeAttribute as R194 writes it. -/
def refDecodeAttribute (s : Bytes) : Except ErrorKind (Attribute × Nat) :=
  if s.length < 4 then .error .truncatedAttribute
  else if s.length - 4 < (be16At s 2).toNat then .error .truncatedValue
  else
    match refDecodeRecord (be16At s 0) (be16At s 2) (slice s 4 (4 + (be16At s 2).toNat)) with
    | .error e => .error e
    | .ok a => .ok (a, 4 + (be16At s 2).toNat)

/-- The while loop of R163 as written, over the indices `off` and `used`; `fuel` bounds its passes. -/
def refLoop (b : Bytes) (len : Nat) : (fuel off used : Nat) → List Attribute → Except ErrorKind (List Attribute)
  | 0, _, used, attrs => if used < len then .error .truncatedAttribute else .ok attrs
  | fuel + 1, off, used, attrs =>
    if used < len then
      let avail := min (b.length - off) (len - used)
      if avail < 4 then .error .truncatedAttribute
      else
        let dl := be16At b (off + 2)
        if 4 + dl.toNat > avail then .error .truncatedAttribute
        else
          match refDecodeRecord (be16At b off) dl (slice b (off + 4) (off + 4 + dl.toNat)) with
          | .error e => .error e
          | .ok a => refLoop b len fuel (off + 4 + dl.toNat) (used + 4 + dl.toNat) (attrs ++ [a])
    else .ok attrs

/-- Deserialize as R162 and R163 write it. The loop gets one pass for each body byte, more than it can use. -/
def refDeserialize (b : Bytes) : Except ErrorKind Message :=
  if b.length < 20 then .error .truncatedHeader
  else
    match refLoop b (be16At b 2).toNat (be16At b 2).toNat 20 0 [] with
    | .error e => .error e
    | .ok attrs =>
      .ok ⟨.decoded, unpackMethod (be16At b 0), unpackClass (be16At b 0), be16At b 2,
        #v[byteAt b 4, byteAt b 5, byteAt b 6, byteAt b 7],
        #v[byteAt b 8, byteAt b 9, byteAt b 10, byteAt b 11, byteAt b 12, byteAt b 13, byteAt b 14, byteAt b 15,
          byteAt b 16, byteAt b 17, byteAt b 18, byteAt b 19], attrs⟩

end Sys2Proof
end

