-- ==== Sys2Proof/Certificates/Slice0/Obligations.lean ====
section
/-! DEFINITION. The statements for the provers, in the order of OBLIGATIONS.json. Each docstring names the rules of
spec/ it formalises. -/

open Sys2Proof Sys2Proof.Machine

/-! ### Encodings (30_encoding.md Part B) -/

/-- Decoding the encoding of any instruction gives it back: no operand bit of R105 is dropped or shared. -/
def Obligations.DecodeOfEncodeIsTheInstruction : Prop := ∀ i : Instr, decode (encode i) = .ok i

/-- A word that decodes is the encoding of what it decodes to: no bit of it, reserved ones included, is ignored (R105,
R106). -/
def Obligations.EncodeOfDecodeIsTheWord : Prop := ∀ (w : CmdWord) (i : Instr), decode w = .ok i → encode i = w

/-- A word decodes exactly when it matches a row of the opcode table, and matches one row only (R104 to R107). -/
def Obligations.DecodeAcceptsExactlyTheTableRows : Prop :=
  ∀ w : CmdWord, ((∃ i, decode w = .ok i) ↔ ∃ row ∈ opcodeRows, w &&& row.1 = row.2) ∧
    ∀ row ∈ opcodeRows, ∀ row' ∈ opcodeRows, w &&& row.1 = row.2 → w &&& row'.1 = row'.2 → row = row'

/-- A word for each of the twelve commands, written out from the opcodes of R104 and the patterns of R105, decodes to the
command it stands for. -/
def Obligations.WrittenOutWordsDecode : Prop :=
  decode 0b00000000001000000000000100000001 = .ok (.construct 0x001 2) ∧
  decode 0b00000000000000000000000000000010 = .ok .addAttribute ∧
  decode 0b00000000000000000000000000000011 = .ok .serialize ∧
  decode 0b00000000000000000000000000000100 = .ok .deserialize ∧
  decode 0b00000000000000000000000000010000 = .ok .encodeAttribute ∧
  decode 0b00000000000000000000011100010001 = .ok (.decodeAttribute 7) ∧
  decode 0b00000000110101000011000100010010 = .ok (.buildMappedAddress 54321) ∧
  decode 0b00000000100000000010001000010011 = .ok (.buildRaw 0x8022) ∧
  decode 0b00000000001111111111111000010100 = .ok (.loadAttr 16382) ∧
  decode 0b00000000001111111111111100100000 = .ok (.packType 0xFFF 3) ∧
  decode 0b00000000110000000000000100100001 = .ok (.unpackType 0xC001) ∧
  decode 0b00000000000000000001010000110000 = .ok (.read 0x14)

/-- An illegal word, whatever the state: no row of the table, or READ with an unlisted selector. It raises
IllegalCommandError before every other check and changes nothing of the block but STATUS (R235). That the word leaves
the host's list and its answer stands on ENT is the model's (logs 1, 2). -/
def Obligations.IllegalWordRaisesIllegalCommand : Prop :=
  ∀ (s : State) (w : CmdWord) (draw : Option Txid) (rest : List HostAction), s.host = .command w draw :: rest →
    ((∀ row ∈ opcodeRows, w &&& row.1 ≠ row.2) ∨
      (w &&& 0xFFFFC0FF = 0x30 ∧ w.extractLsb' 8 6 ∉ knownSelectors)) →
    step s = .next { s with host := rest, ent := draw, status := 14 }

/-- A step with a legal word on CMD is the decoded instruction's meaning, on the state whose host list has moved on and
whose entropy port holds the command's answer (R21, R22, R41). Nothing else is added around the meaning. That the word
leaves the host's list and its answer stands on ENT is the model's (logs 1, 2). -/
def Obligations.StepRunsTheDecodedInstruction : Prop :=
  ∀ (s : State) (w : CmdWord) (draw : Option Txid) (rest : List HostAction) (i : Instr),
    s.host = .command w draw :: rest → decode w = .ok i →
    step s = exec i { s with host := rest, ent := draw }

/-! ### Type word (40_type_word.md) -/

/-- The sixteen bits of a packed type word (R91). -/
def Obligations.TypeWordBitLayout : Prop :=
  ∀ (m : BitVec 12) (c : BitVec 2),
    (∀ i, i < 4 → (packType m c).getLsbD i = m.getLsbD i) ∧
    (packType m c).getLsbD 4 = c.getLsbD 0 ∧
    (∀ i, 5 ≤ i → i ≤ 7 → (packType m c).getLsbD i = m.getLsbD (i - 1)) ∧
    (packType m c).getLsbD 8 = c.getLsbD 1 ∧
    (∀ i, 9 ≤ i → i ≤ 13 → (packType m c).getLsbD i = m.getLsbD (i - 2)) ∧
    (packType m c).getLsbD 14 = false ∧ (packType m c).getLsbD 15 = false

/-- The low byte is the source's formula (R131), the high byte the recovered one (R132). -/
def Obligations.TypeWordByteFormulas : Prop :=
  ∀ (m : BitVec 12) (c : BitVec 2),
    (packType m c).extractLsb' 0 8 =
      (m.setWidth 8 &&& 0x0F) ||| ((c &&& 1).setWidth 8 <<< 4) ||| ((m.setWidth 8 <<< 1) &&& 0xE0) ∧
    (packType m c).extractLsb' 8 8 = ((c.setWidth 8 >>> 1) &&& 1) ||| ((m >>> 6).setWidth 8 &&& 0x3E)

/-- Unpacking a packed pair gives it back, and so packing is injective (R135). -/
def Obligations.UnpackOfPackIsThePair : Prop :=
  (∀ (m : BitVec 12) (c : BitVec 2), unpackMethod (packType m c) = m ∧ unpackClass (packType m c) = c) ∧
  ∀ (m m' : BitVec 12) (c c' : BitVec 2), packType m c = packType m' c' → m = m' ∧ c = c'

/-- Packing an unpacked word clears bits 15 and 14; exactly the words without them survive (R136). -/
def Obligations.PackOfUnpackClearsTheTopBits : Prop :=
  ∀ w : BitVec 16, packType (unpackMethod w) (unpackClass w) = w &&& 0x3FFF ∧
    (packType (unpackMethod w) (unpackClass w) = w ↔ w.getLsbD 15 = false ∧ w.getLsbD 14 = false)

/-- PACK_TYPE completes in every state: the host reads the type word, high byte first; nothing but changes (R137, R133). That OBUF past the output stays is the model's reading of R18 (log 7). -/
def Obligations.PackTypeWritesTheTypeWord : Prop :=
  ∀ (m : BitVec 12) (c : BitVec 2) (s : State), ∃ t, exec (.packType m c) s = .next t ∧
    WritesOutput s t [(packType m c).extractLsb' 8 8, (packType m c).extractLsb' 0 8] ∧
    t = { s with obuf := t.obuf, olen := 2, status := 0 }

/-- UNPACK_TYPE completes in every state: the host reads the method as two bytes and the class as one; nothing but OBUF,
OLEN and STATUS changes (R138). That OBUF past the output stays is the model's reading of R18 (log 7). -/
def Obligations.UnpackTypeWritesMethodAndClass : Prop :=
  ∀ (w : BitVec 16) (s : State), ∃ t, exec (.unpackType w) s = .next t ∧
    WritesOutput s t [(unpackMethod w >>> 8).setWidth 8, (unpackMethod w).setWidth 8, (unpackClass w).setWidth 8] ∧
    t = { s with obuf := t.obuf, olen := 3, status := 0 }

/-! ### Message codec (41_message_codec.md) -/

/-- CONSTRUCT fills the slot with a BUILDING message whose transaction id is the ENT draw, or raises RandomnessError
(code 1); nothing else changes (R150). -/
def Obligations.ConstructFillsTheSlotOrRaises : Prop :=
  ∀ (m : BitVec 12) (c : BitVec 2) (s : State),
    (∀ id, s.ent = some id → exec (.construct m c) s =
      .next { s with msg := some ⟨.building, m, c, 0, #v[0x21, 0x12, 0xA4, 0x42], id, []⟩, status := 0 }) ∧
    (s.ent = none → exec (.construct m c) s = .next { s with status := 1 })

/-- The whole CONSTRUCT command from its word: reserved bits first, then the draw (R151). That the word leaves the host's
list and its answer stands on ENT is the model's (logs 1, 2). -/
def Obligations.ConstructWordSteps : Prop :=
  ∀ (s : State) (w : CmdWord) (draw : Option Txid) (rest : List HostAction),
    s.host = .command w draw :: rest → w.extractLsb' 0 8 = 0x01 →
    step s = .next
      (if w.extractLsb' 22 10 ≠ 0 then { s with host := rest, ent := draw, status := 14 }
      else
        match draw with
        | none => { s with host := rest, ent := draw, status := 1 }
        | some id => { s with
            host := rest
            ent := draw
            msg := some ⟨.building, w.extractLsb' 8 12, w.extractLsb' 20 2, 0, #v[0x21, 0x12, 0xA4, 0x42], id, []⟩
            status := 0 })

/-- ADD_ATTRIBUTE on a BUILDING message with ATTR valid and room for the record: the attribute goes last and the length
grows by exactly 4 + declared_length; ATTR and all else stay (R155). -/
def Obligations.AddAttributeAppendsAndAddsTheLength : Prop :=
  ∀ (s : State) (m : Message) (a : Attribute), s.msg = some m → m.state = .building → s.attr = some a →
    m.length.toNat + 4 + a.declaredLength.toNat ≤ 65535 →
    ∃ m', exec .addAttribute s = .next { s with msg := some m', status := 0 } ∧
      m'.attrs = m.attrs ++ [a] ∧ m'.length.toNat = m.length.toNat + (4 + a.declaredLength.toNat) ∧
      m' = { m with attrs := m'.attrs, length := m'.length }

/-- ADD_ATTRIBUTE's errors in the order of R254: no message (10), not BUILDING (9), no attribute (11), a length past
65535 (8, R156). Only STATUS changes. That the sum is exact and not cut to 17 bits is the model's reading (log 9). -/
def Obligations.AddAttributeErrorsInOrder : Prop :=
  ∀ s : State,
    (s.msg = none → exec .addAttribute s = .next { s with status := 10 }) ∧
    ∀ m, s.msg = some m →
      (m.state ≠ .building → exec .addAttribute s = .next { s with status := 9 }) ∧
      (m.state = .building → s.attr = none → exec .addAttribute s = .next { s with status := 11 }) ∧
      ∀ a, m.state = .building → s.attr = some a → 65535 < m.length.toNat + 4 + a.declaredLength.toNat →
        exec .addAttribute s = .next { s with status := 8 }

/-- SERIALIZE of a well-formed message completes: the host reads the type word, the length, the cookie, the transaction
id and the records in sequence order; BUILDING becomes SEALED, all else of the message and of the block stays (R158, R160). That OBUF past the
output stays is the model's reading of R18 (log 7). -/
def Obligations.SerializeWritesHeaderAndRecords : Prop :=
  ∀ (s : State) (m : Message), s.msg = some m → MsgWf m →
    ∃ t, exec .serialize s = .next t ∧
      WritesOutput s t
        ([(packType m.method m.cls).extractLsb' 8 8, (packType m.method m.cls).extractLsb' 0 8,
          m.length.extractLsb' 8 8, m.length.extractLsb' 0 8] ++ m.cookie.toList ++ m.txid.toList ++
          (m.attrs.map encodeAttribute).flatten) ∧
      t = { s with
        obuf := t.obuf
        olen := t.olen
        msg := some { m with state := if m.state = .building then .sealed else m.state }
        status := 0 }

/-- A well-formed message serializes to exactly 20 + length bytes (R159). -/
def Obligations.SerializedLengthIsTwentyPlusLength : Prop :=
  ∀ m : Message, MsgWf m → (serialize m).length = 20 + m.length.toNat

/-- SERIALIZE repeated gives the same bytes and leaves the message as the first one left it (R160). -/
def Obligations.SerializeAgainGivesTheSameBytes : Prop :=
  ∀ (s t : State), s.msg ≠ none → exec .serialize s = .next t →
    ∃ t', exec .serialize t = .next t' ∧ t'.output = t.output ∧ t'.olen = t.olen ∧ t'.msg = t.msg

/-- DESERIALIZE of any input is the pseudocode of R162 and R163, written over indices as the spec writes it: the decoded
message in the slot, or the first error's code; nothing else changes. -/
def Obligations.DeserializeFollowsThePseudocode : Prop :=
  ∀ (s : State) (b : Bytes), readInput s 0 = some b →
    exec .deserialize s = .next
      (match refDeserialize b with
      | .error e => { s with status := errorCode e }
      | .ok m => { s with msg := some m, status := 0 })

/-- DESERIALIZE completes on every header followed by the records of well-formed attributes and any bytes after the body:
method and class are unpacked, any cookie is kept, the attributes come in order, bytes after the body are ignored (R162,
R163, R164). -/
def Obligations.DeserializeReadsHeaderAndRecords : Prop :=
  ∀ (s : State) (w : BitVec 16) (cookie : Cookie) (id : Txid) (attrs : List Attribute) (tail : Bytes),
    (∀ a ∈ attrs, AttrWf a) → attrsLength attrs ≤ 65535 →
    readInput s 0 = some (bytes16 w ++ bytes16 (BitVec.ofNat 16 (attrsLength attrs)) ++ cookie.toList ++ id.toList ++
      (attrs.map encodeAttribute).flatten ++ tail) →
    exec .deserialize s = .next { s with
      msg := some ⟨.decoded, unpackMethod w, unpackClass w, BitVec.ofNat 16 (attrsLength attrs), cookie, id, attrs⟩
      status := 0 }

/-- Fewer than 20 bytes always fail with TruncatedHeaderError (code 2) and change only STATUS (R162, X3). -/
def Obligations.DeserializeRefusesAShortHeader : Prop :=
  ∀ (s : State) (b : Bytes), readInput s 0 = some b → b.length < 20 →
    exec .deserialize s = .next { s with status := 2 }

/-- Bytes after the body, from index 20 + L on, are not read and not kept: without them the result is the same, message
or error (R164). -/
def Obligations.DeserializeIgnoresBytesAfterTheBody : Prop :=
  ∀ b : Bytes, 20 + (be16At b 2).toNat ≤ b.length →
    deserialize (b.take (20 + (be16At b 2).toNat)) = deserialize b

/-- A well-formed message survives Serialize and Deserialize whole; only its state becomes DECODED (R166). -/
def Obligations.DeserializeOfSerializeIsTheMessage : Prop :=
  ∀ m : Message, MsgWf m → deserialize (serialize m) = .ok { m with state := .decoded }

/-- Serializing a decoded message gives the bytes it came from, with bits 15:14 of the type word cleared and the
reserved byte of every MappedAddress value cleared, and no other change (R167). -/
def Obligations.SerializeOfDeserializeIsTheInput : Prop :=
  ∀ (b : Bytes) (d : Message), deserialize b = .ok d →
    20 + d.length.toNat ≤ b.length ∧ (serialize d).length = 20 + d.length.toNat ∧
    ∀ j, j < 20 + d.length.toNat →
      byteAt (serialize d) j =
        if j = 0 then byteAt b 0 &&& 0x3F else if j ∈ reservedIndices 20 d.attrs then 0x00 else byteAt b j

/-! ### Attribute codec (42_attribute_codec.md) -/

/-- ENCODE_ATTRIBUTE of a well-formed staged attribute completes: the host reads the 4-byte prefix and the value bytes,
4 + declared_length in all; nothing but OBUF, OLEN and STATUS changes (R190, R191, R192, R193). That OBUF past the
output stays is the model's reading of R18 (log 7). -/
def Obligations.EncodeAttributeWritesTheRecord : Prop :=
  ∀ (s : State) (a : Attribute), s.attr = some a → AttrWf a →
    ∃ t, exec .encodeAttribute s = .next t ∧
      WritesOutput s t
        ([a.typeCode.extractLsb' 8 8, a.typeCode.extractLsb' 0 8,
          a.declaredLength.extractLsb' 8 8, a.declaredLength.extractLsb' 0 8] ++
          (match a.value with
          | .mappedAddress family port addr => [0x00, family, port.extractLsb' 8 8, port.extractLsb' 0 8] ++ addr
          | .raw payload => payload)) ∧
      t.olen.toNat = 4 + a.declaredLength.toNat ∧
      t = { s with obuf := t.obuf, olen := t.olen, status := 0 }

/-- DECODE_ATTRIBUTE of any input is the pseudocode of R194, R195 and R196, written over indices as the spec writes it:
the attribute in ATTR and the count in CONSUMED, or the first error's code; nothing else changes. -/
def Obligations.DecodeAttributeFollowsThePseudocode : Prop :=
  ∀ (s : State) (off : BitVec 16) (b : Bytes), readInput s off.toNat = some b →
    exec (.decodeAttribute off) s = .next
      (match refDecodeAttribute b with
      | .error e => { s with status := errorCode e }
      | .ok (a, k) => { s with attr := some a, consumed := some (BitVec.ofNat 17 k), status := 0 })

/-- DECODE_ATTRIBUTE completes on every record whose type code is not 0x0001 and whose value is there: Raw, count
4 + declared_length, and the attribute encodes back to the bytes used (R204). -/
def Obligations.DecodeAttributeKeepsARawRecord : Prop :=
  ∀ (s : State) (off : BitVec 16) (t1 t0 l1 l0 : Byte) (rest : Bytes),
    readInput s off.toNat = some (t1 :: t0 :: l1 :: l0 :: rest) → be16 t1 t0 ≠ 0x0001 →
    (be16 l1 l0).toNat ≤ rest.length →
    ∃ a, a = ⟨be16 t1 t0, be16 l1 l0, .raw (rest.take (be16 l1 l0).toNat)⟩ ∧
      exec (.decodeAttribute off) s = .next { s with
        attr := some a
        consumed := some (BitVec.ofNat 17 (4 + (be16 l1 l0).toNat))
        status := 0 } ∧
      encodeAttribute a = (t1 :: t0 :: l1 :: l0 :: rest).take (4 + (be16 l1 l0).toNat)

/-- DECODE_ATTRIBUTE completes on the two MappedAddress layouts: family 1 with 8 value bytes and family 2 with 20; any
reserved byte is accepted and not stored (R94, R196). -/
def Obligations.DecodeAttributeReadsAMappedAddress : Prop :=
  ∀ (s : State) (off : BitVec 16) (reserved family p1 p0 : Byte) (addr tail : Bytes) (dl : BitVec 16),
    (family = 0x01 ∧ addr.length = 4 ∧ dl = 8) ∨ (family = 0x02 ∧ addr.length = 16 ∧ dl = 20) →
    readInput s off.toNat =
      some ([0x00, 0x01] ++ bytes16 dl ++ [reserved, family, p1, p0] ++ addr ++ tail) →
    exec (.decodeAttribute off) s = .next { s with
      attr := some ⟨0x0001, dl, .mappedAddress family (be16 p1 p0) addr⟩
      consumed := some (4 + dl.setWidth 17)
      status := 0 }

/-- A well-formed attribute decodes back from its encoding, whatever follows; and bytes that decode to a MappedAddress
encode back to the bytes used with byte 4 cleared (R205). -/
def Obligations.AttributeRoundTrip : Prop :=
  (∀ (a : Attribute) (tail : Bytes), AttrWf a →
    decodeAttribute (encodeAttribute a ++ tail) = .ok (a, 4 + a.declaredLength.toNat)) ∧
  ∀ (b : Bytes) (a : Attribute) (k : Nat) (family : Byte) (port : BitVec 16) (addr : Bytes),
    decodeAttribute b = .ok (a, k) → a.value = .mappedAddress family port addr →
    encodeAttribute a = (b.take k).set 4 0x00

/-- The two laws of PARSE_IP: "203.0.113.5" is V4 of CB 00 71 05, "2001:db8::1" is V6 of some 16 bytes (R14). -/
def Obligations.ParseIpMeetsItsLaws : Prop :=
  parseIp [0x32, 0x30, 0x33, 0x2E, 0x30, 0x2E, 0x31, 0x31, 0x33, 0x2E, 0x35] = some (.v4 #v[0xCB, 0x00, 0x71, 0x05]) ∧
  ∃ a, parseIp [0x32, 0x30, 0x30, 0x31, 0x3A, 0x64, 0x62, 0x38, 0x3A, 0x3A, 0x31] = some (.v6 a)

/-- BUILD_MAPPED_ADDRESS, whatever PARSE_IP answers: family 1 with declared length 8, family 2 with 20, or
InvalidAddressError (6); nothing but ATTR and STATUS changes (R200). -/
def Obligations.BuildMappedAddressFollowsParseIp : Prop :=
  ∀ (s : State) (port : BitVec 16) (text : Bytes), readInput s 0 = some text →
    exec (.buildMappedAddress port) s = .next
      (match parseIp text with
      | none => { s with status := 6 }
      | some (.v4 a) => { s with attr := some ⟨0x0001, 8, .mappedAddress 0x01 port a.toList⟩, status := 0 }
      | some (.v6 a) => { s with attr := some ⟨0x0001, 20, .mappedAddress 0x02 port a.toList⟩, status := 0 })

/-- BUILD_RAW: the payload with its exact length, refused (13) for type 0x0001 or over 65535 bytes; nothing but ATTR and
STATUS changes (R202). -/
def Obligations.BuildRawStagesThePayload : Prop :=
  ∀ (s : State) (typeCode : BitVec 16) (payload : Bytes), readInput s 0 = some payload →
    (typeCode ≠ 0x0001 → payload.length ≤ 65535 → ∃ dl : BitVec 16, dl.toNat = payload.length ∧
      exec (.buildRaw typeCode) s =
        .next { s with attr := some ⟨typeCode, dl, .raw payload⟩, status := 0 }) ∧
    (typeCode = 0x0001 ∨ 65535 < payload.length → exec (.buildRaw typeCode) s = .next { s with status := 13 })

/-! ### Register access (43_register_access.md) -/

/-- LOAD_ATTR copies attribute i of the message; no message is error 10, an index past the end error 11; nothing but ATTR
and STATUS changes (R230). -/
def Obligations.LoadAttrCopiesTheIndexedAttribute : Prop :=
  ∀ (s : State) (i : BitVec 14),
    (s.msg = none → exec (.loadAttr i) s = .next { s with status := 10 }) ∧
    ∀ m, s.msg = some m →
      (∀ h : i.toNat < m.attrs.length,
        exec (.loadAttr i) s = .next { s with attr := some m.attrs[i.toNat], status := 0 }) ∧
      (m.attrs.length ≤ i.toNat → exec (.loadAttr i) s = .next { s with status := 11 })

/-- READ of each message selector: MSG_STATE in every state (0 where MSG is EMPTY, 1 BUILDING, 2 SEALED, 3 DECODED, R24),
the others where MSG holds a message, NoMessageError (10) where it is EMPTY; nothing but OBUF, OLEN and STATUS changes
(R231, R232). That OBUF past the output stays is the model's reading of R18 (log 7). -/
def Obligations.ReadGivesTheMessageFields : Prop :=
  ∀ s : State,
    (∃ t, exec (.read 0x01) s = .next t ∧
      WritesOutput s t
        [match s.msg with
          | none => 0x00
          | some m =>
            match m.state with
            | .building => 0x01
            | .sealed => 0x02
            | .decoded => 0x03] ∧
      t = { s with obuf := t.obuf, olen := t.olen, status := 0 }) ∧
    (s.msg = none → ∀ f ∈ [(0x02 : BitVec 6), 0x03, 0x04, 0x05, 0x06, 0x07],
      exec (.read f) s = .next { s with status := 10 }) ∧
    ∀ m, s.msg = some m →
      ∀ row ∈ [((0x02 : BitVec 6), [(m.method >>> 8).setWidth 8, m.method.setWidth 8]),
          (0x03, [m.cls.setWidth 8]), (0x04, [m.length.extractLsb' 8 8, m.length.extractLsb' 0 8]),
          (0x05, m.cookie.toList), (0x06, m.txid.toList),
          (0x07, [BitVec.ofNat 8 (m.attrs.length / 256), BitVec.ofNat 8 m.attrs.length])],
        ∃ t, exec (.read row.1) s = .next t ∧ WritesOutput s t row.2 ∧
          t = { s with obuf := t.obuf, olen := t.olen, status := 0 }

/-- READ of each attribute selector of a well-formed staged attribute: the field's bytes where the variant has the field,
NoFieldError (12) where it lacks it, NoAttributeError (11) where ATTR is invalid; nothing but OBUF, OLEN and STATUS
changes (R231, R233). That OBUF past the output stays is the model's reading of R18 (log 7). -/
def Obligations.ReadGivesTheAttributeFields : Prop :=
  ∀ s : State,
    (s.attr = none → ∀ f ∈ [(0x10 : BitVec 6), 0x11, 0x12, 0x13, 0x14, 0x15, 0x16],
      exec (.read f) s = .next { s with status := 11 }) ∧
    ∀ a, s.attr = some a → AttrWf a →
      (∀ row ∈ [((0x11 : BitVec 6), [a.typeCode.extractLsb' 8 8, a.typeCode.extractLsb' 0 8]),
          (0x12, [a.declaredLength.extractLsb' 8 8, a.declaredLength.extractLsb' 0 8])] ++
          (match a.value with
          | .mappedAddress family port addr =>
            [(0x10, [0x00]), (0x13, [family]), (0x14, [port.extractLsb' 8 8, port.extractLsb' 0 8]), (0x15, addr)]
          | .raw payload => [(0x10, [0x01]), (0x16, payload)]),
        ∃ t, exec (.read row.1) s = .next t ∧ WritesOutput s t row.2 ∧
          t = { s with obuf := t.obuf, olen := t.olen, status := 0 }) ∧
      ∀ f ∈ (match a.value with
          | .mappedAddress _ _ _ => [(0x16 : BitVec 6)]
          | .raw _ => [0x13, 0x14, 0x15]),
        exec (.read f) s = .next { s with status := 12 }

/-- READ of CONSUMED: its value as a 32-bit big-endian number, NoFieldError (12) where it has no value; nothing but OBUF,
OLEN and STATUS changes (R231, R234). That OBUF past the output stays is the model's reading of R18 (log 7). -/
def Obligations.ReadGivesConsumed : Prop :=
  ∀ s : State,
    (s.consumed = none → exec (.read 0x20) s = .next { s with status := 12 }) ∧
    ∀ k, s.consumed = some k →
      ∃ t, exec (.read 0x20) s = .next t ∧
        WritesOutput s t [0x00, BitVec.ofNat 8 (k.toNat / 65536), BitVec.ofNat 8 (k.toNat / 256),
          BitVec.ofNat 8 k.toNat] ∧
        t = { s with obuf := t.obuf, olen := 4, status := 0 }

/-- READ of a selector R108 does not list raises IllegalCommandError (14) and changes nothing else (R108, R231). -/
def Obligations.ReadRefusesAnUnlistedSelector : Prop :=
  ∀ (s : State) (f : BitVec 6), f ∉ knownSelectors → exec (.read f) s = .next { s with status := 14 }

/-! ### Errors (60_exceptions.md) -/

/-- A command, legal or not, that ends with a STATUS other than 0 has written an error's code there and nothing else of
the block: MSG, ATTR, CONSUMED, OBUF and OLEN keep their values (R255). That the word leaves the host's list and its
answer stands on ENT is the model's (logs 1, 2). -/
def Obligations.FailingCommandWritesOnlyStatus : Prop :=
  ∀ (s t : State) (w : CmdWord) (draw : Option Txid) (rest : List HostAction), s.host = .command w draw :: rest →
    step s = .next t → t.status ≠ 0 →
    (∃ e, t.status = errorCode e) ∧ t = { s with host := rest, ent := draw, status := t.status }

/-- Every command writes STATUS: 0, or the code of an error that R250's table lets it raise. -/
def Obligations.CommandsRaiseOnlyTheirErrors : Prop :=
  ∀ (i : Instr) (s t : State), exec i s = .next t → t.status = 0 ∨ ∃ e ∈ mayRaise i, t.status = errorCode e

/-- Before anything is there: SERIALIZE, ADD_ATTRIBUTE, LOAD_ATTR and the message READs raise NoMessageError (10) while
MSG is EMPTY; ENCODE_ATTRIBUTE raises NoAttributeError (11) while ATTR is invalid, and ADD_ATTRIBUTE does on a BUILDING
message (R282). -/
def Obligations.CommandsRaiseWhatIsMissing : Prop :=
  (∀ s : State, s.msg = none →
    exec .serialize s = .next { s with status := 10 } ∧ exec .addAttribute s = .next { s with status := 10 } ∧
    (∀ i, exec (.loadAttr i) s = .next { s with status := 10 }) ∧
    ∀ f : BitVec 6, 0x02 ≤ f.toNat → f.toNat ≤ 0x07 → exec (.read f) s = .next { s with status := 10 }) ∧
  ∀ s : State, s.attr = none →
    exec .encodeAttribute s = .next { s with status := 11 } ∧
    ∀ m, s.msg = some m → m.state = .building → exec .addAttribute s = .next { s with status := 11 }

/-! ### What commands leave alone -/

/-- No command writes IBUF or IBUF_LEN: "Only the host writes them" (R40). That the host's list, the answer on ENT and
IBUF_MAX stay is the model's, which holds them in its state (logs 1, 2, 3). -/
def Obligations.CommandsLeaveTheInputSide : Prop :=
  ∀ (i : Instr) (s t : State), exec i s = .next t →
    (∀ a, t.ibuf.read a = s.ibuf.read a) ∧ t.ibufLen = s.ibufLen ∧ t.ibufMax = s.ibufMax ∧ t.ent = s.ent ∧
      t.host = s.host

/-- The commands other than SERIALIZE, ENCODE_ATTRIBUTE, PACK_TYPE, UNPACK_TYPE and READ leave every byte of OBUF and
OLEN as they were, and so does every command that fails (R284). -/
def Obligations.OnlyFiveCommandsWriteObuf : Prop :=
  ∀ (i : Instr) (s t : State), exec i s = .next t → writesObuf i = false ∨ t.status ≠ 0 →
    (∀ a, t.obuf.read a = s.obuf.read a) ∧ t.olen = s.olen

/-- The five commands that write OBUF write it from index 0 up to OLEN, so the host can read the output, and no byte at
OLEN or above; of the registers they change STATUS alone, and SERIALIZE the message (R18, R78). That
OBUF past the output stays is the model's reading of R18 (log 7). -/
def Obligations.OutputCommandsWriteBelowOlen : Prop :=
  ∀ (i : Instr) (s t : State), exec i s = .next t → writesObuf i = true → t.status = 0 →
    t.output ≠ none ∧ (∀ a, t.olen.toNat ≤ a → t.obuf.read a = s.obuf.read a) ∧
      t.attr = s.attr ∧ t.consumed = s.consumed ∧ (i ≠ .serialize → t.msg = s.msg)

/-- ATTR is written by BUILD_MAPPED_ADDRESS, BUILD_RAW, DECODE_ATTRIBUTE and LOAD_ATTR only, CONSUMED by DECODE_ATTRIBUTE
only, MSG by CONSTRUCT, DESERIALIZE, ADD_ATTRIBUTE and SERIALIZE only (R23, R285). -/
def Obligations.RegistersChangeOnlyByTheirCommands : Prop :=
  ∀ (i : Instr) (s t : State), exec i s = .next t →
    (writesAttr i = false → t.attr = s.attr) ∧
    ((∀ off, i ≠ .decodeAttribute off) → t.consumed = s.consumed) ∧
    ((∀ m c, i ≠ .construct m c) → i ≠ .deserialize → i ≠ .addAttribute → i ≠ .serialize → t.msg = s.msg)

/-- The lifecycle of R24: a message in the slot stays, or is replaced whole by CONSTRUCT (BUILDING) or DESERIALIZE
(DECODED), or is sealed by SERIALIZE, or grows by one attribute at the end by ADD_ATTRIBUTE, and this only in BUILDING.
No command empties the slot. -/
def Obligations.MessageChangesAsTheLifecycleSays : Prop :=
  ∀ (i : Instr) (s t : State) (m : Message), exec i s = .next t → s.msg = some m →
    ∃ m', t.msg = some m' ∧
      (m' = m ∨
        ((∃ method cls, i = .construct method cls) ∧ m'.state = .building ∧ m'.attrs = [] ∧ m'.length = 0) ∨
        (i = .deserialize ∧ m'.state = .decoded) ∨
        (i = .serialize ∧ m.state = .building ∧ m' = { m with state := .sealed }) ∨
        (i = .addAttribute ∧ m.state = .building ∧ ∃ a, s.attr = some a ∧
          m' = { m with attrs := m.attrs ++ [a], length := m.length + 4 + a.declaredLength }))

/-! ### The host's actions (10_state.md R44, 70_reset_and_hazards.md) -/

/-- A load within IBUF_MAX is seen by the next command: right after it the input from any offset is the loaded string's
rest. It writes IBUF[0..n) and IBUF_LEN and no register of the block (R44, R76). That the load leaves the host's list
and that IBUF past it stays is the model's (logs 1, 7). -/
def Obligations.LoadIsSeenByTheNextCommand : Prop :=
  ∀ (s : State) (bytes : Bytes) (rest : List HostAction), s.host = .loadInput bytes :: rest →
    bytes.length ≤ s.ibufMax →
    ∃ t, step s = .next t ∧ (∀ off, readInput t off = some (bytes.drop off)) ∧
      (∀ a, bytes.length ≤ a → t.ibuf.read a = s.ibuf.read a) ∧
      t = { s with host := rest, ibuf := t.ibuf, ibufLen := bytes.length }

/-- A load of more than IBUF_MAX bytes breaks the host's duty (R44); that the model refuses it is the model's choice
(log 8). -/
def Obligations.OverlongLoadIsRefused : Prop :=
  ∀ (s : State) (bytes : Bytes) (rest : List HostAction), s.host = .loadInput bytes :: rest →
    s.ibufMax < bytes.length → step s = .refused .hostOverfillsIbuf

/-- Asserting RST puts MSG, ATTR, CONSUMED, STATUS, OLEN, IBUF_LEN and the bytes of both buffers at their reset values
from any state (R280). That the parameter, the entropy port and the host's further actions stay is the model's choice
(log 14). -/
def Obligations.ResetActionGivesTheResetValues : Prop :=
  ∀ (s : State) (rest : List HostAction), s.host = .assertReset :: rest →
    step s = .next
      { msg := none, attr := none, consumed := none, status := 0, obuf := [], olen := 0, ibuf := [], ibufLen := 0,
        ibufMax := s.ibufMax, ent := s.ent, host := rest }

/-- The reset values of R45: MSG.state 0, ATTR.valid 0, CONSUMED without value, STATUS 0, OLEN 0, IBUF_LEN 0, no byte of
either buffer with a value. -/
def Obligations.ResetStateHasTheListedValues : Prop :=
  State.reset.msgStateCode = 0 ∧ State.reset.msg = none ∧ State.reset.attrValid = 0 ∧ State.reset.attr = none ∧
  State.reset.consumed = none ∧ State.reset.status = 0 ∧ State.reset.olen = 0 ∧ State.reset.ibufLen = 0 ∧
  (∀ a, State.reset.obuf.read a = none) ∧ ∀ a, State.reset.ibuf.read a = none

/-- With no action pending the block waits for a command and nothing changes (R281). That waiting is a step of the model
is its choice (log 1). -/
def Obligations.IdleStepChangesNothing : Prop := ∀ s : State, s.host = [] → step s = .next s

/-! ### The invariant and whole-machine claims -/

/-- The invariant holds at reset, whatever IBUF_MAX is. -/
def Obligations.InvariantHoldsAtReset : Prop := Inv State.reset

/-- Every step keeps the invariant: attributes and messages stay well-formed (R34, R35), CONSUMED stays in 4 to 65539
(R37), STATUS is never 15 (R250), the buffers stay canonical, within their capacity, and hold a value at every valid
index (R39, R40). -/
def Obligations.StepKeepsTheInvariant : Prop := ∀ s t : State, Inv s → step s = .next t → Inv t

/-- From every state that meets the invariant a step completes, whatever the host presents, as long as it keeps its duty
on loads: no error stops the block (R253), no output overflows OBUF (R13), no read misses a byte (R67). That the
host's actions stand in the state is the model's (log 1). -/
def Obligations.StepNeverStopsALegalHost : Prop :=
  ∀ s : State, Inv s → HostLegal s → ∃ t, step s = .next t ∧ Inv t ∧ HostLegal t

/-- Bytes without a value never matter: two states that agree but for OBUF bytes at OLEN or above and IBUF bytes at
IBUF_LEN or above step to states that agree so again and show the host the same (R39, R43, R289). -/
def Obligations.BytesWithoutValueNeverMatter : Prop :=
  ∀ s t s' : State, SameValid s t → step s = .next s' →
    ∃ t', step t = .next t' ∧ SameValid s' t' ∧ observe s' = observe t'

/-- The written forms of R110 and the pseudo-commands of R111 assemble to the commands they stand for, and a READ field
may be written by any name of R108. That the blank before a `;` is dropped, which no example of R110 shows, is the
model's choice (log 15). -/
def Obligations.AssemblerReadsTheWrittenForms : Prop :=
  assemble "CONSTRUCT method=0x001, class=0" = some [.construct 0x001 0] ∧
  assemble "DECODE_ATTRIBUTE off=7 ; the second record\nADD_ATTRIBUTE" = some [.decodeAttribute 7, .addAttribute] ∧
  assemble "READ field=ATTR_PORT" = some [.read 0x14] ∧
  assemble "NEW_BINDING_REQUEST\nNEW_BINDING_INDICATION\nNEW_BINDING_SUCCESS\nNEW_BINDING_ERROR" =
    some [.construct 0x001 0, .construct 0x001 1, .construct 0x001 2, .construct 0x001 3] ∧
  ∀ row ∈ selectorNames, assemble ("READ field=" ++ row.1) = some [.read (selectorBits row.2)]

/-! ### The codes of the errors -/

/-- The code of each error, and that of success, as R250's table numbers them. -/
def Obligations.ErrorCodesAreTheTable : Prop :=
  statusOk = 0 ∧ errorCode .randomness = 1 ∧ errorCode .truncatedHeader = 2 ∧ errorCode .truncatedAttribute = 3 ∧
  errorCode .truncatedValue = 4 ∧ errorCode .invalidFamily = 5 ∧ errorCode .invalidAddress = 6 ∧
  errorCode .lengthMismatch = 7 ∧ errorCode .lengthOverflow = 8 ∧ errorCode .notMutable = 9 ∧
  errorCode .noMessage = 10 ∧ errorCode .noAttribute = 11 ∧ errorCode .noField = 12 ∧
  errorCode .invalidAttribute = 13 ∧ errorCode .illegalCommand = 14
end

