-- ==== Sys2Proof/Laws/State.lean ====
section
/-! SUPPORT. One lemma for each field of State under each update (Machine/Ops.lean), so that no proof unfolds a record
update. -/

namespace Sys2Proof.Machine

variable (s : State)

/-! ### setStatus -/

@[simp] theorem State.setStatus_msg (v : BitVec 4) : (s.setStatus v).msg = s.msg := rfl
@[simp] theorem State.setStatus_attr (v : BitVec 4) : (s.setStatus v).attr = s.attr := rfl
@[simp] theorem State.setStatus_consumed (v : BitVec 4) : (s.setStatus v).consumed = s.consumed := rfl
@[simp] theorem State.setStatus_status (v : BitVec 4) : (s.setStatus v).status = v := rfl
@[simp] theorem State.setStatus_obuf (v : BitVec 4) : (s.setStatus v).obuf = s.obuf := rfl
@[simp] theorem State.setStatus_olen (v : BitVec 4) : (s.setStatus v).olen = s.olen := rfl
@[simp] theorem State.setStatus_ibuf (v : BitVec 4) : (s.setStatus v).ibuf = s.ibuf := rfl
@[simp] theorem State.setStatus_ibufLen (v : BitVec 4) : (s.setStatus v).ibufLen = s.ibufLen := rfl
@[simp] theorem State.setStatus_ibufMax (v : BitVec 4) : (s.setStatus v).ibufMax = s.ibufMax := rfl
@[simp] theorem State.setStatus_ent (v : BitVec 4) : (s.setStatus v).ent = s.ent := rfl
@[simp] theorem State.setStatus_host (v : BitVec 4) : (s.setStatus v).host = s.host := rfl

/-! ### setMsg -/

@[simp] theorem State.setMsg_msg (m : Message) : (s.setMsg m).msg = some m := rfl
@[simp] theorem State.setMsg_attr (m : Message) : (s.setMsg m).attr = s.attr := rfl
@[simp] theorem State.setMsg_consumed (m : Message) : (s.setMsg m).consumed = s.consumed := rfl
@[simp] theorem State.setMsg_status (m : Message) : (s.setMsg m).status = s.status := rfl
@[simp] theorem State.setMsg_obuf (m : Message) : (s.setMsg m).obuf = s.obuf := rfl
@[simp] theorem State.setMsg_olen (m : Message) : (s.setMsg m).olen = s.olen := rfl
@[simp] theorem State.setMsg_ibuf (m : Message) : (s.setMsg m).ibuf = s.ibuf := rfl
@[simp] theorem State.setMsg_ibufLen (m : Message) : (s.setMsg m).ibufLen = s.ibufLen := rfl
@[simp] theorem State.setMsg_ibufMax (m : Message) : (s.setMsg m).ibufMax = s.ibufMax := rfl
@[simp] theorem State.setMsg_ent (m : Message) : (s.setMsg m).ent = s.ent := rfl
@[simp] theorem State.setMsg_host (m : Message) : (s.setMsg m).host = s.host := rfl

/-! ### setAttr -/

@[simp] theorem State.setAttr_msg (a : Attribute) : (s.setAttr a).msg = s.msg := rfl
@[simp] theorem State.setAttr_attr (a : Attribute) : (s.setAttr a).attr = some a := rfl
@[simp] theorem State.setAttr_consumed (a : Attribute) : (s.setAttr a).consumed = s.consumed := rfl
@[simp] theorem State.setAttr_status (a : Attribute) : (s.setAttr a).status = s.status := rfl
@[simp] theorem State.setAttr_obuf (a : Attribute) : (s.setAttr a).obuf = s.obuf := rfl
@[simp] theorem State.setAttr_olen (a : Attribute) : (s.setAttr a).olen = s.olen := rfl
@[simp] theorem State.setAttr_ibuf (a : Attribute) : (s.setAttr a).ibuf = s.ibuf := rfl
@[simp] theorem State.setAttr_ibufLen (a : Attribute) : (s.setAttr a).ibufLen = s.ibufLen := rfl
@[simp] theorem State.setAttr_ibufMax (a : Attribute) : (s.setAttr a).ibufMax = s.ibufMax := rfl
@[simp] theorem State.setAttr_ent (a : Attribute) : (s.setAttr a).ent = s.ent := rfl
@[simp] theorem State.setAttr_host (a : Attribute) : (s.setAttr a).host = s.host := rfl

/-! ### setConsumed -/

@[simp] theorem State.setConsumed_msg (k : BitVec 17) : (s.setConsumed k).msg = s.msg := rfl
@[simp] theorem State.setConsumed_attr (k : BitVec 17) : (s.setConsumed k).attr = s.attr := rfl
@[simp] theorem State.setConsumed_consumed (k : BitVec 17) : (s.setConsumed k).consumed = some k := rfl
@[simp] theorem State.setConsumed_status (k : BitVec 17) : (s.setConsumed k).status = s.status := rfl
@[simp] theorem State.setConsumed_obuf (k : BitVec 17) : (s.setConsumed k).obuf = s.obuf := rfl
@[simp] theorem State.setConsumed_olen (k : BitVec 17) : (s.setConsumed k).olen = s.olen := rfl
@[simp] theorem State.setConsumed_ibuf (k : BitVec 17) : (s.setConsumed k).ibuf = s.ibuf := rfl
@[simp] theorem State.setConsumed_ibufLen (k : BitVec 17) : (s.setConsumed k).ibufLen = s.ibufLen := rfl
@[simp] theorem State.setConsumed_ibufMax (k : BitVec 17) : (s.setConsumed k).ibufMax = s.ibufMax := rfl
@[simp] theorem State.setConsumed_ent (k : BitVec 17) : (s.setConsumed k).ent = s.ent := rfl
@[simp] theorem State.setConsumed_host (k : BitVec 17) : (s.setConsumed k).host = s.host := rfl

/-! ### setOutput -/

@[simp] theorem State.setOutput_msg (out : Bytes) : (s.setOutput out).msg = s.msg := rfl
@[simp] theorem State.setOutput_attr (out : Bytes) : (s.setOutput out).attr = s.attr := rfl
@[simp] theorem State.setOutput_consumed (out : Bytes) : (s.setOutput out).consumed = s.consumed := rfl
@[simp] theorem State.setOutput_status (out : Bytes) : (s.setOutput out).status = s.status := rfl
@[simp] theorem State.setOutput_obuf (out : Bytes) : (s.setOutput out).obuf = s.obuf.writeFromZero out := rfl
@[simp] theorem State.setOutput_olen (out : Bytes) : (s.setOutput out).olen = BitVec.ofNat 17 out.length := rfl
@[simp] theorem State.setOutput_ibuf (out : Bytes) : (s.setOutput out).ibuf = s.ibuf := rfl
@[simp] theorem State.setOutput_ibufLen (out : Bytes) : (s.setOutput out).ibufLen = s.ibufLen := rfl
@[simp] theorem State.setOutput_ibufMax (out : Bytes) : (s.setOutput out).ibufMax = s.ibufMax := rfl
@[simp] theorem State.setOutput_ent (out : Bytes) : (s.setOutput out).ent = s.ent := rfl
@[simp] theorem State.setOutput_host (out : Bytes) : (s.setOutput out).host = s.host := rfl

/-! ### setInput -/

@[simp] theorem State.setInput_msg (bytes : Bytes) : (s.setInput bytes).msg = s.msg := rfl
@[simp] theorem State.setInput_attr (bytes : Bytes) : (s.setInput bytes).attr = s.attr := rfl
@[simp] theorem State.setInput_consumed (bytes : Bytes) : (s.setInput bytes).consumed = s.consumed := rfl
@[simp] theorem State.setInput_status (bytes : Bytes) : (s.setInput bytes).status = s.status := rfl
@[simp] theorem State.setInput_obuf (bytes : Bytes) : (s.setInput bytes).obuf = s.obuf := rfl
@[simp] theorem State.setInput_olen (bytes : Bytes) : (s.setInput bytes).olen = s.olen := rfl
@[simp] theorem State.setInput_ibuf (bytes : Bytes) : (s.setInput bytes).ibuf = s.ibuf.writeFromZero bytes := rfl
@[simp] theorem State.setInput_ibufLen (bytes : Bytes) : (s.setInput bytes).ibufLen = bytes.length := rfl
@[simp] theorem State.setInput_ibufMax (bytes : Bytes) : (s.setInput bytes).ibufMax = s.ibufMax := rfl
@[simp] theorem State.setInput_ent (bytes : Bytes) : (s.setInput bytes).ent = s.ent := rfl
@[simp] theorem State.setInput_host (bytes : Bytes) : (s.setInput bytes).host = s.host := rfl

/-! ### setEnt -/

@[simp] theorem State.setEnt_msg (draw : Option Txid) : (s.setEnt draw).msg = s.msg := rfl
@[simp] theorem State.setEnt_attr (draw : Option Txid) : (s.setEnt draw).attr = s.attr := rfl
@[simp] theorem State.setEnt_consumed (draw : Option Txid) : (s.setEnt draw).consumed = s.consumed := rfl
@[simp] theorem State.setEnt_status (draw : Option Txid) : (s.setEnt draw).status = s.status := rfl
@[simp] theorem State.setEnt_obuf (draw : Option Txid) : (s.setEnt draw).obuf = s.obuf := rfl
@[simp] theorem State.setEnt_olen (draw : Option Txid) : (s.setEnt draw).olen = s.olen := rfl
@[simp] theorem State.setEnt_ibuf (draw : Option Txid) : (s.setEnt draw).ibuf = s.ibuf := rfl
@[simp] theorem State.setEnt_ibufLen (draw : Option Txid) : (s.setEnt draw).ibufLen = s.ibufLen := rfl
@[simp] theorem State.setEnt_ibufMax (draw : Option Txid) : (s.setEnt draw).ibufMax = s.ibufMax := rfl
@[simp] theorem State.setEnt_ent (draw : Option Txid) : (s.setEnt draw).ent = draw := rfl
@[simp] theorem State.setEnt_host (draw : Option Txid) : (s.setEnt draw).host = s.host := rfl

/-! ### setHost -/

@[simp] theorem State.setHost_msg (rest : List HostAction) : (s.setHost rest).msg = s.msg := rfl
@[simp] theorem State.setHost_attr (rest : List HostAction) : (s.setHost rest).attr = s.attr := rfl
@[simp] theorem State.setHost_consumed (rest : List HostAction) : (s.setHost rest).consumed = s.consumed := rfl
@[simp] theorem State.setHost_status (rest : List HostAction) : (s.setHost rest).status = s.status := rfl
@[simp] theorem State.setHost_obuf (rest : List HostAction) : (s.setHost rest).obuf = s.obuf := rfl
@[simp] theorem State.setHost_olen (rest : List HostAction) : (s.setHost rest).olen = s.olen := rfl
@[simp] theorem State.setHost_ibuf (rest : List HostAction) : (s.setHost rest).ibuf = s.ibuf := rfl
@[simp] theorem State.setHost_ibufLen (rest : List HostAction) : (s.setHost rest).ibufLen = s.ibufLen := rfl
@[simp] theorem State.setHost_ibufMax (rest : List HostAction) : (s.setHost rest).ibufMax = s.ibufMax := rfl
@[simp] theorem State.setHost_ent (rest : List HostAction) : (s.setHost rest).ent = s.ent := rfl
@[simp] theorem State.setHost_host (rest : List HostAction) : (s.setHost rest).host = rest := rfl

/-! ### How a command ends -/

theorem ok_eq : ok s = s.setStatus 0 := rfl

theorem raise_eq (e : ErrorKind) : raise e s = s.setStatus (errorCode e) := rfl

@[simp] theorem ok_msg : (ok s).msg = s.msg := rfl
@[simp] theorem ok_attr : (ok s).attr = s.attr := rfl
@[simp] theorem ok_consumed : (ok s).consumed = s.consumed := rfl
@[simp] theorem ok_status : (ok s).status = 0 := rfl
@[simp] theorem ok_obuf : (ok s).obuf = s.obuf := rfl
@[simp] theorem ok_olen : (ok s).olen = s.olen := rfl
@[simp] theorem ok_ibuf : (ok s).ibuf = s.ibuf := rfl
@[simp] theorem ok_ibufLen : (ok s).ibufLen = s.ibufLen := rfl
@[simp] theorem ok_ibufMax : (ok s).ibufMax = s.ibufMax := rfl
@[simp] theorem ok_ent : (ok s).ent = s.ent := rfl
@[simp] theorem ok_host : (ok s).host = s.host := rfl

@[simp] theorem raise_msg (e : ErrorKind) : (raise e s).msg = s.msg := rfl
@[simp] theorem raise_attr (e : ErrorKind) : (raise e s).attr = s.attr := rfl
@[simp] theorem raise_consumed (e : ErrorKind) : (raise e s).consumed = s.consumed := rfl
@[simp] theorem raise_status (e : ErrorKind) : (raise e s).status = errorCode e := rfl
@[simp] theorem raise_obuf (e : ErrorKind) : (raise e s).obuf = s.obuf := rfl
@[simp] theorem raise_olen (e : ErrorKind) : (raise e s).olen = s.olen := rfl
@[simp] theorem raise_ibuf (e : ErrorKind) : (raise e s).ibuf = s.ibuf := rfl
@[simp] theorem raise_ibufLen (e : ErrorKind) : (raise e s).ibufLen = s.ibufLen := rfl
@[simp] theorem raise_ibufMax (e : ErrorKind) : (raise e s).ibufMax = s.ibufMax := rfl
@[simp] theorem raise_ent (e : ErrorKind) : (raise e s).ent = s.ent := rfl
@[simp] theorem raise_host (e : ErrorKind) : (raise e s).host = s.host := rfl

/-! ### The host's actions -/

@[simp] theorem present_host (draw : Option Txid) (rest : List HostAction) : (present draw rest s).host = rest := rfl
@[simp] theorem present_ent (draw : Option Txid) (rest : List HostAction) : (present draw rest s).ent = draw := rfl
@[simp] theorem present_msg (draw : Option Txid) (rest : List HostAction) : (present draw rest s).msg = s.msg := rfl
@[simp] theorem present_attr (draw : Option Txid) (rest : List HostAction) : (present draw rest s).attr = s.attr := rfl
@[simp] theorem present_consumed (draw : Option Txid) (rest : List HostAction) : (present draw rest s).consumed = s.consumed := rfl
@[simp] theorem present_status (draw : Option Txid) (rest : List HostAction) : (present draw rest s).status = s.status := rfl
@[simp] theorem present_obuf (draw : Option Txid) (rest : List HostAction) : (present draw rest s).obuf = s.obuf := rfl
@[simp] theorem present_olen (draw : Option Txid) (rest : List HostAction) : (present draw rest s).olen = s.olen := rfl
@[simp] theorem present_ibuf (draw : Option Txid) (rest : List HostAction) : (present draw rest s).ibuf = s.ibuf := rfl
@[simp] theorem present_ibufLen (draw : Option Txid) (rest : List HostAction) : (present draw rest s).ibufLen = s.ibufLen := rfl
@[simp] theorem present_ibufMax (draw : Option Txid) (rest : List HostAction) : (present draw rest s).ibufMax = s.ibufMax := rfl

@[simp] theorem assertReset_host : (assertReset s).host = s.host := rfl
@[simp] theorem assertReset_ent : (assertReset s).ent = s.ent := rfl
@[simp] theorem assertReset_ibufMax : (assertReset s).ibufMax = s.ibufMax := rfl
@[simp] theorem assertReset_msg : (assertReset s).msg = none := rfl
@[simp] theorem assertReset_attr : (assertReset s).attr = none := rfl
@[simp] theorem assertReset_consumed : (assertReset s).consumed = none := rfl
@[simp] theorem assertReset_status : (assertReset s).status = 0 := rfl
@[simp] theorem assertReset_obuf : (assertReset s).obuf = [] := rfl
@[simp] theorem assertReset_olen : (assertReset s).olen = 0 := rfl
@[simp] theorem assertReset_ibuf : (assertReset s).ibuf = [] := rfl
@[simp] theorem assertReset_ibufLen : (assertReset s).ibufLen = 0 := rfl

end Sys2Proof.Machine
end

