-- ==== Sys2Proof/Laws/Memory.lean ====
section
/-! SUPPORT. The laws of the buffers: what a read after a write gives, and that every operation keeps the canonical
form. -/

namespace Sys2Proof.Machine

/-! ### Reading one byte -/

@[simp] theorem Memory.read_nil (a : Nat) : Memory.read [] a = none := rfl

theorem Memory.read_cons (c : Host.Cell) (m : Memory) (a : Nat) :
    Memory.read (c :: m) a = if a = c.1 then some c.2 else Memory.read m a := by
  obtain ⟨i, b⟩ := c
  simp only [Memory.read, List.lookup_cons]
  by_cases h : a = i
  · simp [h]
  · rw [if_neg h, beq_false_of_ne h]

theorem Memory.read_append (m m' : Memory) (a : Nat) :
    Memory.read (m ++ m') a = (Memory.read m a).or (Memory.read m' a) := by
  induction m with
  | nil => simp
  | cons c m ih =>
    rw [List.cons_append, read_cons, read_cons, ih]
    split <;> simp

/-- The bytes of a written string, at the indices it was written to. -/
theorem read_cellsFrom (off : Nat) (bytes : Bytes) (a : Nat) :
    Memory.read (cellsFrom off bytes) a = if a < off then none else bytes[a - off]? := by
  induction bytes generalizing off with
  | nil => simp [cellsFrom]
  | cons b rest ih =>
    rw [cellsFrom, Memory.read_cons, ih]
    by_cases h : a = off
    · simp [h]
    · by_cases hlt : a < off
      · simp [h, hlt, Nat.lt_succ_of_lt hlt]
      · have h1 : ¬ a < off + 1 := by omega
        have h2 : a - off = (a - (off + 1)) + 1 := by omega
        simp [h, hlt, h1, h2]

theorem Memory.read_filter_ge (m : Memory) (n a : Nat) :
    Memory.read (m.filter fun c => n ≤ c.1) a = if n ≤ a then Memory.read m a else none := by
  induction m with
  | nil => simp
  | cons c m ih =>
    rw [List.filter_cons, read_cons]
    by_cases hc : n ≤ c.1
    · simp only [hc, decide_true, if_true, read_cons, ih]
      by_cases h : a = c.1 <;> simp [h, hc]
    · simp only [hc, decide_false, Bool.false_eq_true, if_false, ih]
      by_cases ha : n ≤ a
      · have h : a ≠ c.1 := by omega
        simp [ha, h]
      · simp [ha]

/-- A read after a write gives the byte written, or, past the written string, what it gave before. -/
theorem Memory.read_writeFromZero (m : Memory) (bytes : Bytes) (a : Nat) :
    (m.writeFromZero bytes).read a = if a < bytes.length then bytes[a]? else m.read a := by
  rw [writeFromZero, read_append, read_cellsFrom, read_filter_ge]
  by_cases h : a < bytes.length
  · simp [h]
  · have h' : bytes.length ≤ a := by omega
    simp [h, h']

/-! ### Reading a string -/

theorem Memory.readBytes_length {m : Memory} {off n : Nat} {bytes : Bytes} (h : m.readBytes off n = some bytes) :
    bytes.length = n := by
  induction n generalizing off bytes with
  | zero => simp [readBytes] at h; simp [← h]
  | succ n ih =>
    simp only [readBytes] at h
    split at h
    · cases h
    · split at h
      · cases h
      · rename_i hr
        cases h
        simp [ih hr]

/-- A string can be read exactly when each of its bytes holds a value. -/
theorem Memory.readBytes_eq_some_iff {m : Memory} {off n : Nat} {bytes : Bytes} :
    m.readBytes off n = some bytes ↔
      bytes.length = n ∧ ∀ i, i < n → m.read (off + i) = bytes[i]? := by
  induction n generalizing off bytes with
  | zero => simp [readBytes, @eq_comm _ _ bytes]
  | succ n ih =>
    constructor
    · intro h
      refine ⟨readBytes_length h, ?_⟩
      simp only [readBytes] at h
      split at h
      · cases h
      · rename_i b hb
        split at h
        · cases h
        · rename_i rest hr
          cases h
          intro i hi
          cases i with
          | zero => simpa using hb
          | succ i =>
            have := (ih.1 hr).2 i (by omega)
            simpa [Nat.add_assoc, Nat.add_comm 1] using this
    · rintro ⟨hl, h⟩
      cases bytes with
      | nil => simp at hl
      | cons b rest =>
        have hb : m.read off = some b := by simpa using h 0 (by omega)
        have hr : m.readBytes (off + 1) n = some rest := by
          refine ih.2 ⟨by simpa using hl, fun i hi => ?_⟩
          have := h (i + 1) (by omega)
          simpa [Nat.add_assoc, Nat.add_comm 1] using this
        simp [readBytes, hb, hr]

/-- What was written is what is read. -/
theorem Memory.readBytes_writeFromZero (m : Memory) (bytes : Bytes) :
    (m.writeFromZero bytes).readBytes 0 bytes.length = some bytes := by
  rw [readBytes_eq_some_iff]
  refine ⟨rfl, fun i hi => ?_⟩
  rw [Nat.zero_add, read_writeFromZero, if_pos hi]

/-- Where every byte holds a value the string can be read. -/
theorem Memory.readBytes_isSome {m : Memory} {off n : Nat} (h : ∀ i, i < n → (m.read (off + i)).isSome) :
    (m.readBytes off n).isSome := by
  induction n generalizing off with
  | zero => rfl
  | succ n ih =>
    obtain ⟨b, hb⟩ := Option.isSome_iff_exists.1 (h 0 (by omega))
    obtain ⟨rest, hr⟩ := Option.isSome_iff_exists.1 (@ih (off + 1) fun i hi => by
      have := h (i + 1) (by omega)
      rwa [show off + (i + 1) = off + 1 + i by omega] at this)
    simp only [Nat.add_zero] at hb
    simp [readBytes, hb, hr]

/-- A read depends on the bytes it covers alone. -/
theorem Memory.readBytes_congr {m m' : Memory} {off n : Nat} (h : ∀ i, i < n → m.read (off + i) = m'.read (off + i)) :
    m.readBytes off n = m'.readBytes off n := by
  induction n generalizing off with
  | zero => rfl
  | succ n ih =>
    have h0 := h 0 (by omega)
    rw [Nat.add_zero] at h0
    rw [readBytes, readBytes, h0, @ih (off + 1) fun i hi => by
      have := h (i + 1) (by omega)
      rwa [show off + (i + 1) = off + 1 + i by omega] at this]

/-! ### The canonical form -/

theorem mem_cellsFrom {off : Nat} {bytes : Bytes} {c : Host.Cell} (h : c ∈ cellsFrom off bytes) :
    off ≤ c.1 ∧ c.1 < off + bytes.length := by
  induction bytes generalizing off with
  | nil => simp [cellsFrom] at h
  | cons b rest ih =>
    rcases List.mem_cons.1 h with rfl | h
    · simp
    · have := ih h
      simp only [List.length_cons]
      omega

theorem cellsFrom_wf (off : Nat) (bytes : Bytes) : Memory.wf (cellsFrom off bytes) := by
  induction bytes generalizing off with
  | nil => exact List.Pairwise.nil
  | cons b rest ih =>
    refine List.Pairwise.cons (fun c hc => ?_) (ih _)
    exact (mem_cellsFrom hc).1

@[simp] theorem Memory.wf_nil : Memory.wf [] := List.Pairwise.nil

/-- A write keeps the canonical form. -/
theorem Memory.writeFromZero_wf {m : Memory} (h : m.wf) (bytes : Bytes) : (m.writeFromZero bytes).wf := by
  refine List.pairwise_append.2 ⟨cellsFrom_wf 0 bytes, h.filter _, fun c hc c' hc' => ?_⟩
  have h1 := (mem_cellsFrom hc).2
  have h2 := (List.mem_filter.1 hc').2
  simp only [decide_eq_true_eq] at h2
  omega

/-- A write stays inside a buffer that the string fits in. -/
theorem Memory.writeFromZero_bounded {m : Memory} {cap : Nat} (h : ∀ c ∈ m, c.1 < cap) {bytes : Bytes}
    (hb : bytes.length ≤ cap) : ∀ c ∈ m.writeFromZero bytes, c.1 < cap := by
  intro c hc
  rcases List.mem_append.1 hc with hc | hc
  · have := (mem_cellsFrom hc).2
    omega
  · exact h c (List.mem_filter.1 hc).1

theorem State.reset_obuf_wf : State.reset.obuf.wf := Memory.wf_nil

theorem State.reset_ibuf_wf : State.reset.ibuf.wf := Memory.wf_nil

end Sys2Proof.Machine
end

