-- ==== Sys2Proof/Laws/Ops.lean ====
section
/-! SUPPORT. What each shared operation can do, said once: `emit`, `withInput`, `readInput`, the ends of the builds and
of the slot's replacement. -/

namespace Sys2Proof.Machine

/-! ### Output -/

theorem emit_next_iff {out : Bytes} {s t : State} :
    emit out s = .next t ↔ out.length ≤ 65555 ∧ t = ok (s.setOutput out) := by
  unfold emit obufSize
  split <;> simp [*, eq_comm]

theorem emit_of_le {out : Bytes} (s : State) (h : out.length ≤ 65555) :
    emit out s = .next (ok (s.setOutput out)) := emit_next_iff.2 ⟨h, rfl⟩

theorem olen_of_le {out : Bytes} (h : out.length ≤ 65555) : (BitVec.ofNat 17 out.length).toNat = out.length := by
  rw [BitVec.toNat_ofNat]
  omega

/-- After an output that fits, the host reads it, and all else of OBUF is as before (R18, R44). -/
theorem writesOutput_ok_setOutput {out : Bytes} (s : State) (h : out.length ≤ 65555) :
    WritesOutput s (ok (s.setOutput out)) out where
  output := by
    rw [State.output, ok_obuf, ok_olen, State.setOutput_olen, State.setOutput_obuf, olen_of_le h]
    exact Memory.readBytes_writeFromZero _ _
  olen := olen_of_le h
  status := rfl
  above := fun a ha => by
    rw [ok_obuf, State.setOutput_obuf, Memory.read_writeFromZero, if_neg (by omega)]

/-! ### Input -/

theorem withInput_next_iff {s t : State} {off : Nat} {run : Bytes → Host.Outcome State Fault Refusal} :
    withInput s off run = .next t ↔ ∃ bytes, readInput s off = some bytes ∧ run bytes = .next t := by
  unfold withInput
  cases readInput s off <;> simp

theorem withInput_of_some {s : State} {off : Nat} {run : Bytes → Host.Outcome State Fault Refusal} {bytes : Bytes}
    (h : readInput s off = some bytes) : withInput s off run = run bytes := by
  unfold withInput
  rw [h]

/-- The bytes a command reads number IBUF_LEN - off, none past IBUF_LEN (R67). -/
theorem readInput_length {s : State} {off : Nat} {bytes : Bytes} (h : readInput s off = some bytes) :
    bytes.length = s.ibufLen - off := by
  unfold readInput at h
  split at h
  · exact Memory.readBytes_length h
  · cases h
    simp
    omega

/-- Where every valid byte of IBUF holds a value, every read succeeds. -/
theorem readInput_isSome {s : State} (h : ∀ a, a < s.ibufLen → (s.ibuf.read a).isSome) (off : Nat) :
    ∃ bytes, readInput s off = some bytes := by
  unfold readInput
  split
  · exact Option.isSome_iff_exists.1 (Memory.readBytes_isSome fun i hi => h _ (by omega))
  · exact ⟨[], rfl⟩

/-- Right after a load every command reads the loaded bytes (R76). -/
theorem readInput_setInput (s : State) (bytes : Bytes) : readInput (s.setInput bytes) 0 = some bytes := by
  simp only [readInput, Nat.zero_le, if_true, State.setInput_ibuf, State.setInput_ibufLen, Nat.sub_zero]
  exact Memory.readBytes_writeFromZero _ _

/-! ### The ends of the builds and of the slot's replacement -/

theorem stageBuilt_cases (built : Except ErrorKind Attribute) (s : State) :
    (∃ e, built = .error e ∧ stageBuilt built s = raise e s) ∨
      ∃ a, built = .ok a ∧ stageBuilt built s = ok (s.setAttr a) := by
  cases built with
  | error e => exact .inl ⟨e, rfl, rfl⟩
  | ok a => exact .inr ⟨a, rfl, rfl⟩

theorem replaceMsg_cases (made : Except ErrorKind Message) (s : State) :
    (∃ e, made = .error e ∧ replaceMsg made s = raise e s) ∨
      ∃ m, made = .ok m ∧ replaceMsg made s = ok (s.setMsg m) := by
  cases made with
  | error e => exact .inl ⟨e, rfl, rfl⟩
  | ok m => exact .inr ⟨m, rfl, rfl⟩

end Sys2Proof.Machine
end

