-- ==== Sys2Proof/Laws/Exec.lean ====
section
/-! SUPPORT. What each command can do when it answers a next state, one inversion lemma a command, and what a step can
do. Later proofs cite these and do not unfold a meaning. -/

namespace Sys2Proof.Machine

variable {s t : State}

theorem execConstruct_next {method : BitVec 12} {cls : BitVec 2} (h : execConstruct method cls s = .next t) :
    (s.ent = none ∧ t = raise .randomness s) ∨
      ∃ id, s.ent = some id ∧ t = ok (s.setMsg ⟨.building, method, cls, 0, magicCookie, id, []⟩) := by
  cases he : s.ent with
  | none =>
    simp only [execConstruct, construct, he, replaceMsg, Host.Outcome.next.injEq] at h
    exact .inl ⟨rfl, h.symm⟩
  | some id =>
    simp only [execConstruct, construct, he, replaceMsg, Host.Outcome.next.injEq] at h
    exact .inr ⟨id, rfl, h.symm⟩

theorem execAddAttribute_next (h : execAddAttribute s = .next t) :
    (s.msg = none ∧ t = raise .noMessage s) ∨
      ∃ m, s.msg = some m ∧
        ((m.state ≠ .building ∧ t = raise .notMutable s) ∨
          (m.state = .building ∧ s.attr = none ∧ t = raise .noAttribute s) ∨
          ∃ a, m.state = .building ∧ s.attr = some a ∧
            ((65535 < appendedLength m a ∧ t = raise .lengthOverflow s) ∨
              (appendedLength m a ≤ 65535 ∧
                t = ok (s.setMsg { m with
                  attrs := m.attrs ++ [a]
                  length := BitVec.ofNat 16 (appendedLength m a) })))) := by
  unfold execAddAttribute at h
  cases hm : s.msg with
  | none => exact .inl ⟨rfl, by simpa [hm, eq_comm] using h⟩
  | some m =>
    refine .inr ⟨m, rfl, ?_⟩
    simp only [hm] at h
    by_cases hb : m.state = .building
    · rw [if_neg (by simpa using hb)] at h
      cases ha : s.attr with
      | none => exact .inr (.inl ⟨hb, rfl, by simpa [ha, eq_comm] using h⟩)
      | some a =>
        refine .inr (.inr ⟨a, hb, rfl, ?_⟩)
        simp only [ha, addAttribute, Host.Outcome.next.injEq] at h
        split at h
        · exact .inl ⟨by omega, h.symm⟩
        · exact .inr ⟨by omega, h.symm⟩
    · rw [if_pos hb] at h
      exact .inl ⟨hb, by simpa [eq_comm] using h⟩

theorem execSerialize_next (h : execSerialize s = .next t) :
    (s.msg = none ∧ t = raise .noMessage s) ∨
      ∃ m, s.msg = some m ∧ (serialize m).length ≤ 65555 ∧
        t = ok ((s.setMsg (sealMessage m)).setOutput (serialize m)) := by
  unfold execSerialize at h
  cases hm : s.msg with
  | none => exact .inl ⟨rfl, by simpa [hm, eq_comm] using h⟩
  | some m =>
    simp only [hm] at h
    exact .inr ⟨m, rfl, emit_next_iff.1 h⟩

theorem execDeserialize_next (h : execDeserialize s = .next t) :
    ∃ bytes, readInput s 0 = some bytes ∧
      ((∃ e, deserialize bytes = .error e ∧ t = raise e s) ∨
        ∃ m, deserialize bytes = .ok m ∧ t = ok (s.setMsg m)) := by
  obtain ⟨bytes, hb, ht⟩ := withInput_next_iff.1 h
  cases ht
  exact ⟨bytes, hb, replaceMsg_cases _ _⟩

theorem execEncodeAttribute_next (h : execEncodeAttribute s = .next t) :
    (s.attr = none ∧ t = raise .noAttribute s) ∨
      ∃ a, s.attr = some a ∧ (encodeAttribute a).length ≤ 65555 ∧ t = ok (s.setOutput (encodeAttribute a)) := by
  unfold execEncodeAttribute at h
  cases ha : s.attr with
  | none => exact .inl ⟨rfl, by simpa [ha, eq_comm] using h⟩
  | some a =>
    simp only [ha] at h
    exact .inr ⟨a, rfl, emit_next_iff.1 h⟩

theorem execDecodeAttribute_next {off : BitVec 16} (h : execDecodeAttribute off s = .next t) :
    ∃ bytes, readInput s off.toNat = some bytes ∧
      ((∃ e, decodeAttribute bytes = .error e ∧ t = raise e s) ∨
        ∃ a k, decodeAttribute bytes = .ok (a, k) ∧
          t = ok ((s.setAttr a).setConsumed (BitVec.ofNat 17 k))) := by
  obtain ⟨bytes, hb, ht⟩ := withInput_next_iff.1 h
  refine ⟨bytes, hb, ?_⟩
  cases hd : decodeAttribute bytes with
  | error e => exact .inl ⟨e, rfl, by simpa [hd, eq_comm] using ht⟩
  | ok r => exact .inr ⟨r.1, r.2, rfl, by simpa [hd, eq_comm] using ht⟩

theorem execBuildMappedAddress_next {port : BitVec 16} (h : execBuildMappedAddress port s = .next t) :
    ∃ text, readInput s 0 = some text ∧
      ((∃ e, buildMappedAddress text port = .error e ∧ t = raise e s) ∨
        ∃ a, buildMappedAddress text port = .ok a ∧ t = ok (s.setAttr a)) := by
  obtain ⟨text, hb, ht⟩ := withInput_next_iff.1 h
  cases ht
  exact ⟨text, hb, stageBuilt_cases _ _⟩

theorem execBuildRaw_next {typeCode : BitVec 16} (h : execBuildRaw typeCode s = .next t) :
    ∃ payload, readInput s 0 = some payload ∧
      ((∃ e, buildRaw typeCode payload = .error e ∧ t = raise e s) ∨
        ∃ a, buildRaw typeCode payload = .ok a ∧ t = ok (s.setAttr a)) := by
  obtain ⟨payload, hb, ht⟩ := withInput_next_iff.1 h
  cases ht
  exact ⟨payload, hb, stageBuilt_cases _ _⟩

theorem execLoadAttr_next {index : BitVec 14} (h : execLoadAttr index s = .next t) :
    (s.msg = none ∧ t = raise .noMessage s) ∨
      ∃ m, s.msg = some m ∧
        ((m.attrs[index.toNat]? = none ∧ t = raise .noAttribute s) ∨
          ∃ a, m.attrs[index.toNat]? = some a ∧ t = ok (s.setAttr a)) := by
  unfold execLoadAttr at h
  cases hm : s.msg with
  | none => exact .inl ⟨rfl, by simpa [hm, eq_comm] using h⟩
  | some m =>
    refine .inr ⟨m, rfl, ?_⟩
    simp only [hm] at h
    split at h
    · rename_i hn
      exact .inl ⟨hn, by simpa [eq_comm] using h⟩
    · rename_i a ha
      exact .inr ⟨a, ha, by simpa [eq_comm] using h⟩

theorem execPackType_next {method : BitVec 12} {cls : BitVec 2} (h : execPackType method cls s = .next t) :
    t = ok (s.setOutput (bytes16 (packType method cls))) := (emit_next_iff.1 h).2

theorem execUnpackType_next {word : BitVec 16} (h : execUnpackType word s = .next t) :
    t = ok (s.setOutput (bytes16 (zext 16 (unpackMethod word)) ++ [zext 8 (unpackClass word)])) :=
  (emit_next_iff.1 h).2

theorem execRead_next {field : BitVec 6} (h : execRead field s = .next t) :
    (selectorOf field = none ∧ t = raise .illegalCommand s) ∨
      ∃ sel, selectorOf field = some sel ∧
        ((∃ e, readField sel s = .error e ∧ t = raise e s) ∨
          ∃ out, readField sel s = .ok out ∧ out.length ≤ 65555 ∧ t = ok (s.setOutput out)) := by
  unfold execRead at h
  cases hs : selectorOf field with
  | none => exact .inl ⟨rfl, by simpa [hs, eq_comm] using h⟩
  | some sel =>
    refine .inr ⟨sel, rfl, ?_⟩
    simp only [hs] at h
    split at h
    · rename_i e he
      exact .inl ⟨e, he, by simpa [eq_comm] using h⟩
    · rename_i out ho
      exact .inr ⟨out, ho, emit_next_iff.1 h⟩

/-- READ fails only with the errors R231 to R234 name. -/
theorem readField_error {sel : Selector} {e : ErrorKind} (h : readField sel s = .error e) :
    e = .noMessage ∨ e = .noAttribute ∨ e = .noField := by
  cases sel <;> simp only [readField, readMsg, readAttr] at h <;> (repeat' split at h) <;> simp_all

/-- What a step can do: wait, load, reset, reject a word, or run the decoded instruction. -/
theorem step_next (h : step s = .next t) :
    (s.host = [] ∧ t = s) ∨
      (∃ bytes rest, s.host = .loadInput bytes :: rest ∧ bytes.length ≤ s.ibufMax ∧
        t = (s.setHost rest).setInput bytes) ∨
      (∃ rest, s.host = .assertReset :: rest ∧ t = assertReset (s.setHost rest)) ∨
      ∃ w draw rest, s.host = .command w draw :: rest ∧
        ((fetch w = none ∧ t = raise .illegalCommand (present draw rest s)) ∨
          ∃ i, fetch w = some i ∧ exec i (present draw rest s) = .next t) := by
  unfold step at h
  split at h
  · rename_i hh
    exact .inl ⟨hh, by simpa [idle, eq_comm] using h⟩
  · rename_i bytes rest hh
    refine .inr (.inl ⟨bytes, rest, hh, ?_⟩)
    unfold loadInput at h
    split at h
    · rename_i hl
      exact ⟨hl, by simpa [eq_comm] using h⟩
    · cases h
  · rename_i rest hh
    exact .inr (.inr (.inl ⟨rest, hh, by simpa [eq_comm] using h⟩))
  · rename_i w draw rest hh
    refine .inr (.inr (.inr ⟨w, draw, rest, hh, ?_⟩))
    split at h
    · rename_i hf
      exact .inl ⟨hf, by simpa [rejectWord, eq_comm] using h⟩
    · rename_i i hf
      exact .inr ⟨i, hf, h⟩

end Sys2Proof.Machine
end

