-- ==== Sys2Proof/Laws/Codec.lean ====
section
/-! SUPPORT. The laws of the codec's pure functions: byte order, lengths of encodings, what a decoded record is, and how
the attribute loop of DESERIALIZE runs over records. -/

namespace Sys2Proof.Machine

/-! ### Byte order -/

@[simp] theorem bytes16_length (v : BitVec 16) : (bytes16 v).length = 2 := rfl

/-- Reading back a written 16-bit value (R17, R61). -/
@[simp] theorem be16_bytes (v : BitVec 16) : be16 (v.extractLsb' 8 8) (v.extractLsb' 0 8) = v := by
  apply BitVec.eq_of_getLsbD_eq
  intro i hi
  rw [be16, BitVec.getLsbD_append]
  by_cases h : i < 8
  · simp [h]
  · have h8 : 8 + (i - 8) = i := by omega
    simp [h, h8, show i - 8 < 8 by omega]

@[simp] theorem bytes16_be16 (hi lo : Byte) : bytes16 (be16 hi lo) = [hi, lo] := by
  have h1 : (be16 hi lo).extractLsb' 8 8 = hi := by
    ext i hi'
    simp only [be16, BitVec.getElem_extractLsb', BitVec.getLsbD_append]
    simp [hi']
  have h0 : (be16 hi lo).extractLsb' 0 8 = lo := by
    ext i hi'
    simp only [be16, BitVec.getElem_extractLsb', BitVec.getLsbD_append]
    simp [hi']
  rw [bytes16, h1, h0]

/-! ### Lengths of encodings -/

/-- A well-formed value encodes to declared_length bytes (R192). -/
theorem encodeValue_length {a : Attribute} (h : AttrWf a) : (encodeValue a.value).length = a.declaredLength.toNat := by
  unfold AttrWf at h
  split at h
  · rename_i family port addr hv
    rw [hv]
    obtain ⟨-, ⟨-, hl, hd⟩ | ⟨-, hl, hd⟩⟩ := h <;> simp [encodeValue, hl, hd]
  · rename_i payload hv
    rw [hv, h.2]
    rfl

theorem encodeAttribute_length {a : Attribute} (h : AttrWf a) :
    (encodeAttribute a).length = 4 + a.declaredLength.toNat := by
  simp only [encodeAttribute, List.length_append, bytes16_length, encodeValue_length h]

@[simp] theorem attrsLength_nil : attrsLength [] = 0 := rfl

@[simp] theorem attrsLength_cons (a : Attribute) (as : List Attribute) :
    attrsLength (a :: as) = 4 + a.declaredLength.toNat + attrsLength as := by
  simp [attrsLength]

theorem attrsLength_append (as bs : List Attribute) : attrsLength (as ++ bs) = attrsLength as + attrsLength bs := by
  simp [attrsLength]

theorem flatMap_encodeAttribute_length {as : List Attribute} (h : ∀ a ∈ as, AttrWf a) :
    (as.flatMap encodeAttribute).length = attrsLength as := by
  induction as with
  | nil => rfl
  | cons a as ih =>
    rw [List.flatMap_cons, List.length_append, encodeAttribute_length (h a (by simp)), attrsLength_cons,
      ih fun b hb => h b (by simp [hb])]

/-! ### What a decoded record is -/

/-- DecodeMappedAddress succeeds only on a well-formed value, and keeps all of it but the reserved byte (R196). -/
theorem decodeMappedAddress_ok {dl : BitVec 16} {v : Bytes} {a : Attribute} (hv : v.length = dl.toNat)
    (h : decodeMappedAddress dl v = .ok a) :
    ∃ reserved family p1 p0 addr, v = reserved :: family :: p1 :: p0 :: addr ∧
      a = ⟨0x0001, dl, .mappedAddress family (be16 p1 p0) addr⟩ ∧
      ((family = 0x01 ∧ addr.length = 4 ∧ dl = 8) ∨ (family = 0x02 ∧ addr.length = 16 ∧ dl = 20)) := by
  unfold decodeMappedAddress at h
  split at h
  · cases h
  · split at h
    · rename_i reserved family rest
      split at h
      · cases h
      · rename_i hf
        split at h
        · cases h
        · rename_i hn
          split at h
          · rename_i p1 p0 addr
            cases h
            have hf' : family = 0x01 ∨ family = 0x02 := by tauto
            simp only [List.length_cons, not_not] at hv hn
            refine ⟨reserved, family, p1, p0, addr, rfl, ?_, ?_⟩
            · rw [List.take_of_length_le (by omega)]
              rfl
            · rcases hf' with rfl | rfl
              · simp only [familyLength, if_true] at hn
                exact .inl ⟨rfl, by omega, by apply BitVec.eq_of_toNat_eq; simpa using hn⟩
              · simp [familyLength] at hn
                exact .inr ⟨rfl, by omega, by apply BitVec.eq_of_toNat_eq; simpa using hn⟩
          · cases h
    · cases h

/-- A decoded record is well-formed and carries the prefix it was decoded from (R34). -/
theorem decodeRecord_ok {typeCode dl : BitVec 16} {v : Bytes} {a : Attribute} (hv : v.length = dl.toNat)
    (h : decodeRecord typeCode dl v = .ok a) : AttrWf a ∧ a.typeCode = typeCode ∧ a.declaredLength = dl := by
  unfold decodeRecord at h
  split at h
  · rename_i ht
    obtain ⟨r, family, p1, p0, addr, -, rfl, hw⟩ := decodeMappedAddress_ok hv h
    exact ⟨⟨rfl, hw⟩, ht.symm, rfl⟩
  · rename_i ht
    cases h
    exact ⟨⟨ht, hv.symm⟩, rfl, rfl⟩

theorem decodeRecord_error {typeCode dl : BitVec 16} {v : Bytes} {e : ErrorKind}
    (h : decodeRecord typeCode dl v = .error e) : e = .lengthMismatch ∨ e = .invalidFamily := by
  simp only [decodeRecord, decodeMappedAddress] at h
  (repeat' split at h) <;> simp_all

/-- A record decodes back from its own value bytes (R190, R191, R195, R196). -/
theorem decodeRecord_encodeValue {a : Attribute} (h : AttrWf a) :
    decodeRecord a.typeCode a.declaredLength (encodeValue a.value) = .ok a := by
  obtain ⟨typeCode, dl, value⟩ := a
  cases value with
  | mappedAddress family port addr =>
    obtain ⟨rfl, ⟨rfl, hl, rfl⟩ | ⟨rfl, hl, rfl⟩⟩ := h <;>
      simp [decodeRecord, mappedAddressType, encodeValue, bytes16, decodeMappedAddress, familyLength, hl,
        List.take_of_length_le]
  | raw payload =>
    have ht : typeCode ≠ mappedAddressType := h.1
    simp only [decodeRecord, if_neg ht, encodeValue]

/-! ### One attribute from a byte string -/

theorem decodeAttribute_ok {bytes : Bytes} {a : Attribute} {k : Nat} (h : decodeAttribute bytes = .ok (a, k)) :
    ∃ t1 t0 l1 l0 rest, bytes = t1 :: t0 :: l1 :: l0 :: rest ∧ (be16 l1 l0).toNat ≤ rest.length ∧
      k = 4 + (be16 l1 l0).toNat ∧
      decodeRecord (be16 t1 t0) (be16 l1 l0) (rest.take (be16 l1 l0).toNat) = .ok a := by
  unfold decodeAttribute at h
  split at h
  · rename_i t1 t0 l1 l0 rest
    simp only at h
    split at h
    · cases h
    · split at h
      · cases h
      · rename_i a' ha
        cases h
        exact ⟨t1, t0, l1, l0, rest, rfl, by omega, rfl, ha⟩
  · cases h

theorem decodeAttribute_ok_wf {bytes : Bytes} {a : Attribute} {k : Nat} (h : decodeAttribute bytes = .ok (a, k)) :
    AttrWf a ∧ k = 4 + a.declaredLength.toNat := by
  obtain ⟨t1, t0, l1, l0, rest, -, hl, hk, hr⟩ := decodeAttribute_ok h
  obtain ⟨hw, -, hd⟩ := decodeRecord_ok (by simp; omega) hr
  exact ⟨hw, by rw [hk, hd]⟩

theorem decodeAttribute_error {bytes : Bytes} {e : ErrorKind} (h : decodeAttribute bytes = .error e) :
    e = .truncatedAttribute ∨ e = .truncatedValue ∨ e = .lengthMismatch ∨ e = .invalidFamily := by
  unfold decodeAttribute at h
  split at h
  · simp only at h
    split at h
    · cases h
      simp
    · split at h
      · rename_i e' he
        cases h
        rcases decodeRecord_error he with rfl | rfl <;> simp
      · cases h
  · cases h
    simp

/-! ### Built attributes -/

theorem buildMappedAddress_ok {text : Bytes} {port : BitVec 16} {a : Attribute}
    (h : buildMappedAddress text port = .ok a) : AttrWf a := by
  unfold buildMappedAddress at h
  split at h
  · cases h
  · cases h
    exact ⟨rfl, .inl ⟨rfl, by simp, rfl⟩⟩
  · cases h
    exact ⟨rfl, .inr ⟨rfl, by simp, rfl⟩⟩

theorem buildMappedAddress_error {text : Bytes} {port : BitVec 16} {e : ErrorKind}
    (h : buildMappedAddress text port = .error e) : e = .invalidAddress := by
  unfold buildMappedAddress at h
  split at h <;> cases h
  rfl

theorem buildRaw_ok {typeCode : BitVec 16} {payload : Bytes} {a : Attribute} (h : buildRaw typeCode payload = .ok a) :
    AttrWf a := by
  unfold buildRaw at h
  split at h
  · cases h
  · rename_i ht
    split at h
    · cases h
    · cases h
      exact ⟨ht, by rw [BitVec.toNat_ofNat]; omega⟩

theorem buildRaw_error {typeCode : BitVec 16} {payload : Bytes} {e : ErrorKind}
    (h : buildRaw typeCode payload = .error e) : e = .invalidAttribute := by
  unfold buildRaw at h
  split at h
  · cases h
    rfl
  · split at h <;> cases h
    rfl

/-! ### The attribute loop -/

/-- The loop's equation while body bytes are left: what one pass does (R163). -/
theorem deserializeAttrs_succ (passes : Nat) (rest : Bytes) (left : Nat) (attrs : List Attribute) (h : left ≠ 0) :
    deserializeAttrs (passes + 1) rest left attrs =
      if min rest.length left < 4 then .error .truncatedAttribute
      else
        match rest with
        | t1 :: t0 :: l1 :: l0 :: tail =>
          if min rest.length left < 4 + (be16 l1 l0).toNat then .error .truncatedAttribute
          else
            match decodeRecord (be16 t1 t0) (be16 l1 l0) (tail.take (be16 l1 l0).toNat) with
            | .error e => .error e
            | .ok a =>
              deserializeAttrs passes (tail.drop (be16 l1 l0).toNat) (left - (4 + (be16 l1 l0).toNat)) (attrs ++ [a])
        | _ => .error .truncatedAttribute := by
  rw [deserializeAttrs, if_neg h] <;> rfl

@[simp] theorem deserializeAttrs_zero (passes : Nat) (rest : Bytes) (attrs : List Attribute) :
    deserializeAttrs passes rest 0 attrs = .ok attrs := by
  cases passes <;> simp [deserializeAttrs]

/-- What a successful loop has decoded: the attributes before it, then well-formed ones whose records fill the body
exactly (R35, R163). -/
theorem deserializeAttrs_ok {passes : Nat} {rest : Bytes} {left : Nat} {attrs result : List Attribute}
    (h : deserializeAttrs passes rest left attrs = .ok result) :
    ∃ new, result = attrs ++ new ∧ (∀ a ∈ new, AttrWf a) ∧ attrsLength new = left := by
  induction passes generalizing rest left attrs with
  | zero =>
    simp only [deserializeAttrs] at h
    split at h
    · cases h
      exact ⟨[], by simp, by simp, by simp [*]⟩
    · cases h
  | succ passes ih =>
    by_cases hl : left = 0
    · subst hl
      rw [deserializeAttrs_zero] at h
      cases h
      exact ⟨[], by simp, by simp, rfl⟩
    · rw [deserializeAttrs_succ _ _ _ _ hl] at h
      split at h
      · cases h
      · split at h
        · rename_i t1 t0 l1 l0 tail _
          split at h
          · cases h
          · split at h
            · cases h
            · rename_i hfit _ a ha
              obtain ⟨new, rfl, hw, hs⟩ := ih h
              simp only [List.length_cons] at hfit
              obtain ⟨hwa, -, hd⟩ := decodeRecord_ok (by simp; omega) ha
              refine ⟨a :: new, by simp, ?_, ?_⟩
              · intro b hb
                rcases List.mem_cons.1 hb with rfl | hb
                · exact hwa
                · exact hw b hb
              · rw [attrsLength_cons, hs, hd]
                omega
        · cases h

theorem deserializeAttrs_error {passes : Nat} {rest : Bytes} {left : Nat} {attrs : List Attribute} {e : ErrorKind}
    (h : deserializeAttrs passes rest left attrs = .error e) :
    e = .truncatedAttribute ∨ e = .lengthMismatch ∨ e = .invalidFamily := by
  induction passes generalizing rest left attrs with
  | zero =>
    simp only [deserializeAttrs] at h
    split at h <;> cases h
    simp
  | succ passes ih =>
    by_cases hl : left = 0
    · subst hl
      rw [deserializeAttrs_zero] at h
      cases h
    · rw [deserializeAttrs_succ _ _ _ _ hl] at h
      split at h
      · cases h
        simp
      · split at h
        · split at h
          · cases h
            simp
          · split at h
            · rename_i e' he
              cases h
              exact .inr (decodeRecord_error he)
            · exact ih h
        · cases h
          simp

/-- One pass over a record at the front of the rest decodes it. -/
theorem deserializeAttrs_record {passes left : Nat} {a : Attribute} (tail : Bytes) (attrs : List Attribute)
    (h : AttrWf a) (hl : 4 + a.declaredLength.toNat ≤ left) :
    deserializeAttrs (passes + 1) (encodeAttribute a ++ tail) left attrs =
      deserializeAttrs passes tail (left - (4 + a.declaredLength.toNat)) (attrs ++ [a]) := by
  have hv := encodeValue_length h
  have he : encodeAttribute a ++ tail =
      a.typeCode.extractLsb' 8 8 :: a.typeCode.extractLsb' 0 8 :: a.declaredLength.extractLsb' 8 8 ::
        a.declaredLength.extractLsb' 0 8 :: (encodeValue a.value ++ tail) := by
    simp [encodeAttribute, bytes16]
  have htake : (encodeValue a.value ++ tail).take a.declaredLength.toNat = encodeValue a.value := by
    rw [← hv, List.take_left]
  have hdrop : (encodeValue a.value ++ tail).drop a.declaredLength.toNat = tail := by
    rw [← hv, List.drop_left]
  rw [he, deserializeAttrs_succ _ _ _ _ (by omega)]
  simp only [List.length_cons, List.length_append, hv, be16_bytes, htake, hdrop, decodeRecord_encodeValue h]
  rw [if_neg (by omega), if_neg (by omega)]

/-- A loop over the records of well-formed attributes decodes them in order (R163). -/
theorem deserializeAttrs_records {as : List Attribute} (h : ∀ a ∈ as, AttrWf a) (tail : Bytes)
    (attrs : List Attribute) {passes : Nat} (hp : as.length ≤ passes) :
    deserializeAttrs passes (as.flatMap encodeAttribute ++ tail) (attrsLength as) attrs = .ok (attrs ++ as) := by
  induction as generalizing attrs passes with
  | nil => simp
  | cons a as ih =>
    cases passes with
    | zero => simp at hp
    | succ passes =>
      rw [List.flatMap_cons, List.append_assoc,
        deserializeAttrs_record _ _ (h a (by simp)) (by rw [attrsLength_cons]; omega), attrsLength_cons,
        Nat.add_sub_cancel_left, ih (fun b hb => h b (by simp [hb])) _ (by simpa using hp)]
      simp

/-- Every record has at least 4 bytes, so a body holds at most a quarter as many records as bytes (R11). -/
theorem length_le_attrsLength (as : List Attribute) : 4 * as.length ≤ attrsLength as := by
  induction as with
  | nil => simp
  | cons a as ih =>
    simp only [List.length_cons, attrsLength_cons]
    omega

/-! ### The header -/

theorem exists_vector4 (v : Cookie) : ∃ a0 a1 a2 a3, v = #v[a0, a1, a2, a3] := by
  refine ⟨v[0], v[1], v[2], v[3], Vector.ext fun i hi => ?_⟩
  interval_cases i <;> rfl

theorem exists_vector12 (v : Txid) : ∃ a0 a1 a2 a3 a4 a5 a6 a7 a8 a9 a10 a11,
    v = #v[a0, a1, a2, a3, a4, a5, a6, a7, a8, a9, a10, a11] := by
  refine ⟨v[0], v[1], v[2], v[3], v[4], v[5], v[6], v[7], v[8], v[9], v[10], v[11], Vector.ext fun i hi => ?_⟩
  interval_cases i <;> rfl

/-- Deserialize on a header and a body: the header fields are copied, the loop decides the rest (R162, R163). -/
theorem deserialize_header (w len : BitVec 16) (cookie : Cookie) (id : Txid) (body : Bytes) :
    deserialize (bytes16 w ++ bytes16 len ++ cookie.toList ++ id.toList ++ body) =
      match deserializeAttrs maxPasses body len.toNat [] with
      | .error e => .error e
      | .ok attrs => .ok ⟨.decoded, unpackMethod w, unpackClass w, len, cookie, id, attrs⟩ := by
  obtain ⟨_, _, _, _, rfl⟩ := exists_vector4 cookie
  obtain ⟨_, _, _, _, _, _, _, _, _, _, _, _, rfl⟩ := exists_vector12 id
  cases h : deserializeAttrs maxPasses body len.toNat [] <;> simp [bytes16, deserialize, h]

theorem exists_cons {n : Nat} {l : Bytes} (h : n + 1 ≤ l.length) : ∃ x r, l = x :: r ∧ n ≤ r.length := by
  cases l with
  | nil => simp at h
  | cons x r => exact ⟨x, r, rfl, by simpa using h⟩

/-- Twenty bytes or more are a header and a body (R90). -/
theorem header_split {b : Bytes} (h : 20 ≤ b.length) :
    ∃ (w len : BitVec 16) (cookie : Cookie) (id : Txid) (body : Bytes),
      b = bytes16 w ++ bytes16 len ++ cookie.toList ++ id.toList ++ body := by
  refine ⟨be16At b 0, be16At b 2, ⟨((b.drop 4).take 4).toArray, by simp; omega⟩,
    ⟨((b.drop 8).take 12).toArray, by simp; omega⟩, b.drop 20, ?_⟩
  obtain ⟨b0, r0, rfl, h0⟩ := exists_cons h
  obtain ⟨b1, r1, rfl, h1⟩ := exists_cons h0
  obtain ⟨b2, r2, rfl, h2⟩ := exists_cons h1
  obtain ⟨b3, r3, rfl, h3⟩ := exists_cons h2
  have e : r3 = r3.take 4 ++ ((r3.drop 4).take 12 ++ (r3.drop 4).drop 12) := by
    rw [List.take_append_drop, List.take_append_drop]
  rw [List.drop_drop] at e
  simp only [be16At, byteAt, bytes16_be16, List.getD_cons_zero, List.getD_cons_succ, List.drop_succ_cons,
    List.drop_zero, Nat.zero_add, List.cons_append, List.nil_append, List.append_assoc]
  exact congrArg (fun r => b0 :: b1 :: b2 :: b3 :: r) e

/-- Fewer bytes are no header (R162). -/
theorem deserialize_short {b : Bytes} (h : b.length < 20) : deserialize b = .error .truncatedHeader := by
  unfold deserialize
  split
  · simp only [List.length_cons] at h
    omega
  · rfl

end Sys2Proof.Machine
end

