-- ==== Sys2Proof/Laws/PerInstr.lean ====
section
/-! SUPPORT. Facts about every instruction as syntax, one lemma a constructor. Family `OpcodeByte`: bits 7:0 of the
encoding are the opcode R104 assigns (30_encoding.md R103, R104). -/

namespace Sys2Proof.Laws.OpcodeByte

/-- Bits 7:0 of the instruction's word are its opcode (R103, R104). -/
def Statement (i : Instr) : Prop := opcodeField (encode i) = opcodeOf i

/-- An operand placed at bit 8 or above leaves bits 7:0 of the word as they are. -/
theorem opcodeField_place_or {n lo : Nat} (v : BitVec n) (w : CmdWord) (h : 8 ≤ lo) :
    opcodeField (place lo v ||| w) = opcodeField w := by
  apply BitVec.eq_of_getLsbD_eq
  intro k hk
  have : k < lo := by omega
  simp [opcodeField, place, hk, this]

theorem construct (method : BitVec 12) (cls : BitVec 2) : Statement (.construct method cls) := by
  show opcodeField (place 20 cls ||| place 8 method ||| 0x01#32) = 0x01
  rw [BitVec.or_assoc, opcodeField_place_or _ _ (by omega), opcodeField_place_or _ _ (by omega)]
  decide

theorem addAttribute : Statement .addAttribute := by
  unfold Statement
  decide

theorem serialize : Statement .serialize := by
  unfold Statement
  decide

theorem deserialize : Statement .deserialize := by
  unfold Statement
  decide

theorem encodeAttribute : Statement .encodeAttribute := by
  unfold Statement
  decide

theorem decodeAttribute (off : BitVec 16) : Statement (.decodeAttribute off) :=
  (opcodeField_place_or off _ (by omega)).trans rfl

theorem buildMappedAddress (port : BitVec 16) : Statement (.buildMappedAddress port) :=
  (opcodeField_place_or port _ (by omega)).trans rfl

theorem buildRaw (typeCode : BitVec 16) : Statement (.buildRaw typeCode) :=
  (opcodeField_place_or typeCode _ (by omega)).trans rfl

theorem loadAttr (index : BitVec 14) : Statement (.loadAttr index) :=
  (opcodeField_place_or index _ (by omega)).trans rfl

theorem packType (method : BitVec 12) (cls : BitVec 2) : Statement (.packType method cls) := by
  show opcodeField (place 20 cls ||| place 8 method ||| 0x20#32) = 0x20
  rw [BitVec.or_assoc, opcodeField_place_or _ _ (by omega), opcodeField_place_or _ _ (by omega)]
  decide

theorem unpackType (word : BitVec 16) : Statement (.unpackType word) :=
  (opcodeField_place_or word _ (by omega)).trans rfl

theorem read (field : BitVec 6) : Statement (.read field) :=
  (opcodeField_place_or field _ (by omega)).trans rfl

end Sys2Proof.Laws.OpcodeByte
end

