-- ==== Sys2Proof/Tests/Slice0.lean ====
section
/-! SUPPORT. Tests. Expected results are the spec's own (95_test_vectors.md, and the examples of the command rules);
each test names its source. Then one witness for each obligation with hypotheses: a concrete state and operands that
meet all of them together. -/

namespace Sys2Proof.Tests

open Sys2Proof Sys2Proof.Machine

/-! ### Helpers -/

/-- The reset state with a concrete IBUF_MAX: the reset state's own is free (log 3). -/
def base : State := { State.reset with ibufMax := 100 }

/-- `base` with a string loaded. -/
def loaded (bytes : Bytes) : State := base.setInput bytes

/-- The draw E0 of 95_test_vectors.md. -/
def e0 : Txid := #v[0x00, 0x01, 0x02, 0x03, 0x04, 0x05, 0x06, 0x07, 0x08, 0x09, 0x0A, 0x0B]

/-- {0x0001, 8, MappedAddress(1, 80, 0A 00 00 01)} of V-AC-11. -/
def mapped : Attribute := ⟨0x0001, 8, .mappedAddress 0x01 0x0050 [0x0A, 0x00, 0x00, 0x01]⟩

/-- {0x0001, 20, MappedAddress(2, 80, 20 01 0D B8 00*11 01)} of V-AC-20. -/
def mapped6 : Attribute :=
  ⟨0x0001, 20, .mappedAddress 0x02 0x0050 [0x20, 0x01, 0x0D, 0xB8, 0, 0, 0, 0, 0, 0, 0, 0, 0, 0, 0, 0x01]⟩

/-- Raw(0x8022, 3, 61 62 63) of V-AC-6. -/
def rawAbc : Attribute := ⟨0x8022, 3, .raw [0x61, 0x62, 0x63]⟩

/-- The message of V-MSG-13, in any state of its life. -/
def message (state : Lifecycle) : Message :=
  ⟨state, 0x001, 2, 19, #v[0x21, 0x12, 0xA4, 0x42], e0, [rawAbc, mapped]⟩

/-- A BUILDING message without attributes, after CONSTRUCT method=0x001, class=0 with the draw E0. -/
def fresh : Message := ⟨.building, 0x001, 0, 0, #v[0x21, 0x12, 0xA4, 0x42], e0, []⟩

def withMsg (m : Message) : State := base.setMsg m

def withAttr (a : Attribute) : State := base.setAttr a

/-- `base` with a command pending. -/
def presented (w : CmdWord) (draw : Option Txid) : State := base.setHost [.command w draw]

/-- The next state, if there is one. -/
def after (o : Host.Outcome State Fault Refusal) : Option State :=
  match o with
  | .next t => some t
  | .fault _ => none
  | .refused _ => none

/-- STATUS and the output after a step. -/
def seen (o : Host.Outcome State Fault Refusal) : Option (BitVec 4 × Option Bytes) :=
  (after o).map fun t => (t.status, t.output)

/-- STATUS, MSG and ATTR after a step. -/
def registers (o : Host.Outcome State Fault Refusal) : Option (BitVec 4 × Option Message × Option Attribute) :=
  (after o).map fun t => (t.status, t.msg, t.attr)

/-! ### WellFormed -/

/-- V-IL-7, V-IL-8 (R108). -/
theorem test_wellFormed_refuses_unlisted_selectors :
    (Instr.read 0x08).wellFormed = false ∧ (Instr.read 0x3F).wellFormed = false ∧
      (Instr.read 0x00).wellFormed = false := by decide

/-- R108. -/
theorem test_wellFormed_accepts_listed_selectors : ∀ f ∈ knownSelectors, (Instr.read f).wellFormed = true := by decide

/-! ### Decode: words written out from the patterns of R105 -/

/-- `0000000000ccmmmmmmmmmmmm00000001`: the example of R151, and V-MSG-4's word. -/
theorem test_decode_construct :
    decode 0b00000000000000000000000100000001 = .ok (.construct 0x001 0) ∧
      decode 0b00000000000100000000000100000001 = .ok (.construct 0x001 1) := by decide

theorem test_decode_addAttribute : decode 0b00000000000000000000000000000010 = .ok .addAttribute := by decide

theorem test_decode_serialize : decode 0b00000000000000000000000000000011 = .ok .serialize := by decide

theorem test_decode_deserialize : decode 0b00000000000000000000000000000100 = .ok .deserialize := by decide

theorem test_decode_encodeAttribute : decode 0b00000000000000000000000000010000 = .ok .encodeAttribute := by decide

/-- `00000000oooooooooooooooo00010001`: V-AC-22's 0x00006411. -/
theorem test_decode_decodeAttribute : decode 0b00000000000000000110010000010001 = .ok (.decodeAttribute 100) := by decide

/-- `00000000pppppppppppppppp00010010`: X5's 0x00D43112. -/
theorem test_decode_buildMappedAddress :
    decode 0b00000000110101000011000100010010 = .ok (.buildMappedAddress 54321) := by decide

/-- `00000000tttttttttttttttt00010011`: V-AC-33's 0x00802213. -/
theorem test_decode_buildRaw : decode 0b00000000100000000010001000010011 = .ok (.buildRaw 0x8022) := by decide

/-- `0000000000iiiiiiiiiiiiii00010100`: V-MSG-23's 0x003FFE14. -/
theorem test_decode_loadAttr : decode 0b00000000001111111111111000010100 = .ok (.loadAttr 16382) := by decide

/-- `0000000000ccmmmmmmmmmmmm00100000`: V-TW-16's 0x0010AB20. -/
theorem test_decode_packType : decode 0b00000000000100001010101100100000 = .ok (.packType 0x0AB 1) := by decide

/-- `00000000wwwwwwwwwwwwwwww00100001`: V-TW-34's 0x002EEF21. -/
theorem test_decode_unpackType : decode 0b00000000001011101110111100100001 = .ok (.unpackType 0x2EEF) := by decide

/-- `000000000000000000ffffff00110000`: V-RA-15's 0x00001430. -/
theorem test_decode_read : decode 0b00000000000000000001010000110000 = .ok (.read 0x14) := by decide

/-- V-IL-1, V-IL-2, V-IL-3: unassigned opcodes. -/
theorem test_decode_refuses_unassigned_opcodes :
    decode 0x00000000 = .error .unassignedOpcode ∧ decode 0x00000005 = .error .unassignedOpcode ∧
      decode 0x000000FF = .error .unassignedOpcode := by decide

/-- V-IL-4 to V-IL-6, V-IL-9, V-IL-10, V-TW-19, V-TW-39, V-AC-23, V-MSG-3: reserved bits. -/
theorem test_decode_refuses_reserved_bits :
    decode 0x01000003 = .error .reservedBits ∧ decode 0x00000102 = .error .reservedBits ∧
      decode 0x00FFFE14 = .error .reservedBits ∧ decode 0x00004130 = .error .reservedBits ∧
      decode 0x00800004 = .error .reservedBits ∧ decode 0x00400020 = .error .reservedBits ∧
      decode 0x01000021 = .error .reservedBits ∧ decode 0x80000011 = .error .reservedBits ∧
      decode 0x00400101 = .error .reservedBits := by decide

theorem test_encode_gives_the_written_words :
    encode (.packType 0xFFF 3) = 0x003FFF20 ∧ encode (.construct 0x001 1) = 0x00100101 ∧
      encode (.loadAttr 2) = 0x00000214 ∧ encode (.read 0x20) = 0x00002030 := by decide

theorem test_decodeTableWord :
    decodeTableWord 32 0x00D43112 = some (.buildMappedAddress 54321) ∧ decodeTableWord 32 0x01000003 = none := by decide

/-! ### Meanings -/

/-- The example of R151. -/
theorem test_construct_fills_the_slot :
    registers (exec (.construct 0x001 0) (base.setEnt (some e0))) = some (0, some fresh, none) := by decide

/-- V-MSG-2: ENT answers None, and the old message stays. -/
theorem test_construct_without_entropy :
    registers (exec (.construct 0x001 0) (withMsg (message .decoded))) = some (1, some (message .decoded), none) := by
  decide

/-- The length of R157's example: 4 + 8. -/
theorem test_addAttribute_grows_the_length :
    registers (exec .addAttribute ((withMsg fresh).setAttr mapped)) =
      some (0, some { fresh with length := 12, attrs := [mapped] }, some mapped) := by decide

/-- V-MSG-22: at length 65535 even an empty Raw overflows. -/
theorem test_addAttribute_overflows :
    registers (exec .addAttribute ((withMsg { fresh with length := 65535 }).setAttr ⟨0x8022, 0, .raw []⟩)) =
      some (8, some { fresh with length := 65535 }, some ⟨0x8022, 0, .raw []⟩) := by decide

/-- V-MSG-27, and the message is sealed. -/
theorem test_serialize_seals_and_writes_the_header :
    seen (exec .serialize (withMsg fresh)) =
      some (0, some [0x00, 0x01, 0x00, 0x00, 0x21, 0x12, 0xA4, 0x42, 0x00, 0x01, 0x02, 0x03, 0x04, 0x05, 0x06, 0x07,
        0x08, 0x09, 0x0A, 0x0B]) ∧
    registers (exec .serialize (withMsg fresh)) = some (0, some { fresh with state := .sealed }, none) := by decide

/-- V-MSG-13: the decoded message serializes to its 39 bytes and stays DECODED. -/
theorem test_serialize_writes_the_records_in_order :
    seen (exec .serialize (withMsg (message .decoded))) =
      some (0, some [0x01, 0x01, 0x00, 0x13, 0x21, 0x12, 0xA4, 0x42, 0x00, 0x01, 0x02, 0x03, 0x04, 0x05, 0x06, 0x07,
        0x08, 0x09, 0x0A, 0x0B, 0x80, 0x22, 0x00, 0x03, 0x61, 0x62, 0x63, 0x00, 0x01, 0x00, 0x08, 0x00, 0x01, 0x00,
        0x50, 0x0A, 0x00, 0x00, 0x01]) := by decide

/-- V-MSG-12 with V-MSG-19's record: trailing bytes and the reserved byte 7F are ignored. -/
theorem test_deserialize_ignores_trailing_bytes :
    registers (exec .deserialize (loaded [0xC1, 0x01, 0x00, 0x0C, 0x21, 0x12, 0xA4, 0x42, 0x00, 0x01, 0x02, 0x03, 0x04,
      0x05, 0x06, 0x07, 0x08, 0x09, 0x0A, 0x0B, 0x00, 0x01, 0x00, 0x08, 0x7F, 0x01, 0x00, 0x50, 0x0A, 0x00, 0x00, 0x01,
      0xEE])) =
      some (0, some ⟨.decoded, 0x001, 2, 12, #v[0x21, 0x12, 0xA4, 0x42], e0, [mapped]⟩, none) := by decide

/-- V-MSG-18: the first attribute's bad family wins over the later truncation. -/
theorem test_deserialize_reports_the_first_error :
    registers (exec .deserialize (loaded [0x00, 0x01, 0x00, 0x10, 0x21, 0x12, 0xA4, 0x42, 0x00, 0x01, 0x02, 0x03, 0x04,
      0x05, 0x06, 0x07, 0x08, 0x09, 0x0A, 0x0B, 0x00, 0x01, 0x00, 0x08, 0x00, 0x03, 0x00, 0x50, 0x00, 0x00, 0x00, 0x01,
      0x80, 0x22])) = some (5, none, none) := by decide

/-- The example of R193. -/
theorem test_encodeAttribute_writes_the_record :
    seen (exec .encodeAttribute (withAttr rawAbc)) =
      some (0, some [0x80, 0x22, 0x00, 0x03, 0x61, 0x62, 0x63]) := by decide

/-- V-AC-11's re-encoding: the reserved byte is 00, then the family. -/
theorem test_encodeAttribute_reserved_byte :
    seen (exec .encodeAttribute (withAttr mapped)) =
      some (0, some [0x00, 0x01, 0x00, 0x08, 0x00, 0x01, 0x00, 0x50, 0x0A, 0x00, 0x00, 0x01]) := by decide

/-- R199's example at offset 7. -/
theorem test_decodeAttribute_at_an_offset :
    (after (exec (.decodeAttribute 7) (loaded [0x80, 0x22, 0x00, 0x03, 0x61, 0x62, 0x63, 0x00, 0x01, 0x00, 0x08, 0x00,
      0x01, 0x00, 0x50, 0x0A, 0x00, 0x00, 0x01]))).map (fun t => (t.status, t.attr, t.consumed)) =
      some (0, some mapped, some 12) := by decide

/-- V-AC-3, V-AC-5: the prefix, then the value; V-AC-17: the family before the length; V-AC-10: a length below 2 before
the family. -/
theorem test_decodeAttribute_order_of_checks :
    registers (exec (.decodeAttribute 0) (loaded [0x80, 0x22, 0x00])) = some (3, none, none) ∧
    registers (exec (.decodeAttribute 0) (loaded [0x80, 0x22, 0x00, 0x03, 0x61, 0x62])) = some (4, none, none) ∧
    registers (exec (.decodeAttribute 0) (loaded [0x00, 0x01, 0x00, 0x02, 0x00, 0x07])) = some (5, none, none) ∧
    registers (exec (.decodeAttribute 0) (loaded [0x00, 0x01, 0x00, 0x01, 0x00])) = some (7, none, none) := by decide

/-- X5: "203.0.113.5", port 54321. -/
theorem test_buildMappedAddress_ipv4 :
    registers (exec (.buildMappedAddress 54321)
      (loaded [0x32, 0x30, 0x33, 0x2E, 0x30, 0x2E, 0x31, 0x31, 0x33, 0x2E, 0x35])) =
      some (0, none, some ⟨0x0001, 8, .mappedAddress 0x01 0xD431 [0xCB, 0x00, 0x71, 0x05]⟩) := by decide

/-- X6: "2001:db8::1" selects family 2 with declared length 20; its address bytes are PARSE_IP's. -/
theorem test_buildMappedAddress_ipv6 :
    (after (exec (.buildMappedAddress 80)
      (loaded [0x32, 0x30, 0x30, 0x31, 0x3A, 0x64, 0x62, 0x38, 0x3A, 0x3A, 0x31]))).map (fun t => (t.status, t.attr)) =
      some (0, some ⟨0x0001, 20, .mappedAddress 0x02 80 Config.parseIpV6Example.toList⟩) := rfl

/-- V-AC-33. -/
theorem test_buildRaw_stages_the_payload :
    registers (exec (.buildRaw 0x8022) (loaded [0x61, 0x62, 0x63])) = some (0, none, some rawAbc) := by decide

/-- V-AC-35: type 0x0001 is refused. -/
theorem test_buildRaw_refuses_type_1 :
    registers (exec (.buildRaw 0x0001) (loaded [0x78])) = some (13, none, none) := by decide

/-- V-RA-16. -/
theorem test_loadAttr_copies_by_index :
    registers (exec (.loadAttr 1) (withMsg (message .decoded))) = some (0, some (message .decoded), some mapped) := by
  decide

/-- V-RA-22. -/
theorem test_loadAttr_past_the_end :
    registers (exec (.loadAttr 2) (withMsg (message .decoded))) = some (11, some (message .decoded), none) := by decide

/-- V-TW-16, V-TW-17. -/
theorem test_packType :
    seen (exec (.packType 0x0AB 1) base) = some (0, some [0x02, 0x5B]) ∧
      seen (exec (.packType 0x555 2) base) = some (0, some [0x15, 0xA5]) := by decide

/-- V-TW-26, V-TW-36. -/
theorem test_unpackType :
    seen (exec (.unpackType 0xC001) base) = some (0, some [0x00, 0x01, 0x00]) ∧
      seen (exec (.unpackType 0x025B) base) = some (0, some [0x00, 0xAB, 0x01]) := by decide

/-- V-RA-19, V-RA-7. -/
theorem test_read_fields :
    seen (exec (.read 0x14) (withAttr mapped)) = some (0, some [0x00, 0x50]) ∧
      seen (exec (.read 0x07) (withMsg (message .decoded))) = some (0, some [0x00, 0x02]) := by decide

/-- V-RA-21, V-RA-9, V-RA-24: a failing READ keeps the old output. -/
theorem test_read_errors :
    seen (exec (.read 0x16) ((withAttr mapped).setOutput [0x07])) = some (12, some [0x07]) ∧
      seen (exec (.read 0x20) base) = some (12, some []) ∧ seen (exec (.read 0x02) base) = some (10, some []) := by
  decide

/-! ### The step -/

/-- V-IL-1: an illegal word writes STATUS alone. -/
theorem test_step_rejects_an_illegal_word :
    registers (step (presented 0x00000000 none)) = some (14, none, none) := by decide

/-- V-RST-1. -/
theorem test_step_reset :
    (after (step (((withMsg fresh).setAttr mapped).setHost [.assertReset]))).map
      (fun t => (t.msg, t.attr, t.consumed, [t.status.toNat, t.olen.toNat, t.ibufLen])) = some (none, none, none, [0, 0, 0]) := by
  decide

/-- A load changes no register of the block (R44). -/
theorem test_step_load :
    (after (step ((base.setStatus 9).setHost [.loadInput [0x61, 0x62]]))).map
      (fun t => (t.status, t.ibufLen, t.ibuf)) = some (9, 2, [(0, 0x61), (1, 0x62)]) := by decide

/-- The next step after `withFetchWord` runs the word: V-TW-5. -/
theorem test_withFetchWord_is_run :
    seen (step (State.reset.withFetchWord 32 0x00300120)) = some (0, some [0x01, 0x11]) := by decide

/-! ### Type word -/

/-- X10: the low byte for m = 0x0AB, c0 = 1. -/
theorem test_type_word_low_byte : (packType 0x0AB 1).extractLsb' 0 8 = 0x5B := by decide

/-- V-TW-40. -/
theorem test_type_word_converse : packType (unpackMethod 0xC001) (unpackClass 0xC001) = 0x0001 := by decide

/-! ### Memory -/

/-- A shorter write leaves the bytes above it, and the list stays in order (R18; log 7). -/
theorem test_write_keeps_the_bytes_above :
    Memory.writeFromZero [(0, 0x01), (1, 0x02), (2, 0x03)] [0xFF] = [(0, 0xFF), (1, 0x02), (2, 0x03)] := by decide

/-- An unwritten byte has no value (R39, R43). -/
theorem test_unwritten_byte : Memory.read [(0, 0x01)] 1 = none := by decide

/-! ### Assembler -/

/-- R110, R111: a comment, a pseudo-command, a hex and a decimal value. -/
theorem test_assemble :
    assemble "; P1\nNEW_BINDING_REQUEST\nBUILD_MAPPED_ADDRESS port=54321 ; the port\nLOAD_ATTR index=0x1" =
      some [.construct 0x001 0, .buildMappedAddress 54321, .loadAttr 1] := by decide

/-- R112: no out-of-range operand exists; R105: fields in order. -/
theorem test_assemble_refuses :
    assemble "CONSTRUCT class=0, method=1" = none ∧ assemble "PACK_TYPE method=0x1000, class=0" = none ∧
      assemble "READ field=NOTHING" = none := by decide

/-! ### Witnesses: for each obligation with hypotheses, concrete inputs that meet them all; for one with clauses, each
clause at a boundary value. An obligation without hypotheses needs none. -/

theorem mapped_wf : AttrWf mapped := ⟨rfl, .inl ⟨rfl, rfl, rfl⟩⟩

theorem mapped6_wf : AttrWf mapped6 := ⟨rfl, .inr ⟨rfl, rfl, rfl⟩⟩

theorem rawAbc_wf : AttrWf rawAbc := ⟨by decide, rfl⟩

theorem message_wf (state : Lifecycle) : MsgWf (message state) where
  attrs := fun a ha => by
    rcases List.mem_cons.1 ha with rfl | ha
    · exact rawAbc_wf
    · rw [List.mem_singleton.1 ha]
      exact mapped_wf
  length := rfl
  cookie := fun _ => rfl

/-- The bytes of V-MSG-13 with the reserved byte 7F, bits 15:14 of the type word set, and two bytes after the body. -/
def wire : Bytes :=
  [0xC1, 0x01, 0x00, 0x13, 0x21, 0x12, 0xA4, 0x42, 0x00, 0x01, 0x02, 0x03, 0x04, 0x05, 0x06, 0x07, 0x08, 0x09, 0x0A,
   0x0B, 0x80, 0x22, 0x00, 0x03, 0x61, 0x62, 0x63, 0x00, 0x01, 0x00, 0x08, 0x7F, 0x01, 0x00, 0x50, 0x0A, 0x00, 0x00,
   0x01, 0xEE, 0xEE]

/-- A row, with every operand bit of READ set. -/
theorem witness_DecodeAcceptsExactlyTheTableRows : (0x00003F30 : CmdWord) &&& 0xFFFFC0FF = 0x30 := by decide

theorem witness_EncodeOfDecodeIsTheWord : decode 0x00802213 = .ok (.buildRaw 0x8022) := by decide

/-- Both clauses: the opcode between two assigned ones, and the last unlisted selector. -/
theorem witness_IllegalWordRaisesIllegalCommand :
    ((presented 0x00000005 none).host = .command 0x00000005 none :: [] ∧
      ∀ row ∈ opcodeRows, (0x00000005 : CmdWord) &&& row.1 ≠ row.2) ∧
    ((presented 0x00003F30 none).host = .command 0x00003F30 none :: [] ∧
      (0x00003F30 : CmdWord) &&& 0xFFFFC0FF = 0x30 ∧ (0x00003F30 : CmdWord).extractLsb' 8 6 ∉ knownSelectors) :=
  ⟨⟨rfl, by simp [opcodeRows]⟩, rfl, by decide, by decide⟩

theorem witness_StepRunsTheDecodedInstruction :
    (presented 0x00000101 (some e0)).host = .command 0x00000101 (some e0) :: [] ∧
      decode 0x00000101 = .ok (.construct 0x001 0) := by decide

/-- The last bit of each group of the layout (V-TW-6: method 0xFFF, class 0). -/
theorem witness_TypeWordBitLayout :
    (3 < 4 ∧ (packType 0xFFF 0).getLsbD 3 = true) ∧ ((5 ≤ 7 ∧ 7 ≤ 7) ∧ (packType 0xFFF 0).getLsbD 7 = true) ∧
      (9 ≤ 13 ∧ 13 ≤ 13) ∧ (packType 0xFFF 0).getLsbD 13 = true := by decide

theorem witness_UnpackOfPackIsThePair : packType 0xFFF 3 = packType 0xFFF 3 := rfl

theorem witness_ConstructFillsTheSlotOrRaises : (base.setEnt (some e0)).ent = some e0 ∧ base.ent = none := ⟨rfl, rfl⟩

/-- All three ends of the word: a reserved bit, no entropy, a draw. -/
theorem witness_ConstructWordSteps :
    ((presented 0x00400101 (some e0)).host = .command 0x00400101 (some e0) :: [] ∧
      (0x00400101 : CmdWord).extractLsb' 0 8 = 0x01 ∧ (0x00400101 : CmdWord).extractLsb' 22 10 ≠ 0) ∧
    ((presented 0x003FFF01 none).host = .command 0x003FFF01 none :: [] ∧
      (0x003FFF01 : CmdWord).extractLsb' 0 8 = 0x01) ∧
    (presented 0x00000001 (some e0)).host = .command 0x00000001 (some e0) :: [] ∧
      (0x00000001 : CmdWord).extractLsb' 0 8 = 0x01 := by decide

/-- The final length exactly 65535 (V-MSG-22). -/
theorem witness_AddAttributeAppendsAndAddsTheLength :
    ((withMsg { fresh with length := 65523 }).setAttr mapped).msg = some { fresh with length := 65523 } ∧
      ({ fresh with length := 65523 } : Message).state = .building ∧
      ((withMsg { fresh with length := 65523 }).setAttr mapped).attr = some mapped ∧
      (65523 : BitVec 16).toNat + 4 + mapped.declaredLength.toNat ≤ 65535 := by decide

/-- Each error, the overflow by one. -/
theorem witness_AddAttributeErrorsInOrder :
    base.msg = none ∧
    ((withMsg (message .sealed)).msg = some (message .sealed) ∧ (message .sealed).state ≠ .building) ∧
    ((withMsg fresh).msg = some fresh ∧ fresh.state = .building ∧ (withMsg fresh).attr = none) ∧
    ((withMsg { fresh with length := 65524 }).setAttr mapped).attr = some mapped ∧
      65535 < (65524 : BitVec 16).toNat + 4 + mapped.declaredLength.toNat := by decide

theorem witness_SerializeWritesHeaderAndRecords :
    ((withMsg (message .building)).msg = some (message .building) ∧ MsgWf (message .building)) ∧
      (withMsg (message .decoded)).msg = some (message .decoded) ∧ MsgWf (message .decoded) :=
  ⟨⟨rfl, message_wf _⟩, rfl, message_wf _⟩

theorem witness_SerializedLengthIsTwentyPlusLength : MsgWf (message .sealed) := message_wf _

theorem witness_SerializeAgainGivesTheSameBytes :
    (withMsg fresh).msg ≠ none ∧ ∃ t, exec .serialize (withMsg fresh) = .next t := ⟨by decide, _, rfl⟩

/-- An input that decodes and one that does not. -/
theorem witness_DeserializeFollowsThePseudocode :
    readInput (loaded wire) 0 = some wire ∧ readInput base 0 = some [] := by decide

theorem witness_DeserializeReadsHeaderAndRecords :
    (∀ a ∈ [rawAbc, mapped], AttrWf a) ∧ attrsLength [rawAbc, mapped] ≤ 65535 ∧
      readInput (loaded (serialize (message .sealed) ++ [0xEE])) 0 =
        some (bytes16 0x0101 ++ bytes16 (BitVec.ofNat 16 (attrsLength [rawAbc, mapped])) ++
          (#v[0x21, 0x12, 0xA4, 0x42] : Cookie).toList ++ e0.toList ++
          ([rawAbc, mapped].map encodeAttribute).flatten ++ [0xEE]) :=
  ⟨(message_wf .sealed).attrs, by decide, by decide⟩

/-- 19 bytes (V-MSG-6) and none (V-MSG-5). -/
theorem witness_DeserializeRefusesAShortHeader :
    (readInput (loaded (List.replicate 19 0x00)) 0 = some (List.replicate 19 0x00) ∧
      (List.replicate 19 (0x00 : Byte)).length < 20) ∧
    readInput base 0 = some [] ∧ ([] : Bytes).length < 20 := by decide

/-- Two bytes after the body, and none. -/
theorem witness_DeserializeIgnoresBytesAfterTheBody :
    20 + (be16At wire 2).toNat < wire.length ∧
      20 + (be16At (wire.take 39) 2).toNat = (wire.take 39).length := by decide

theorem witness_DeserializeOfSerializeIsTheMessage : MsgWf (message .building) ∧ MsgWf (message .decoded) :=
  ⟨message_wf _, message_wf _⟩

/-- The input's top bits, reserved byte and trailing bytes are the ones R167 speaks of. -/
theorem witness_SerializeOfDeserializeIsTheInput : deserialize wire = .ok (message .decoded) := by rfl

theorem witness_EncodeAttributeWritesTheRecord :
    ((withAttr mapped).attr = some mapped ∧ AttrWf mapped) ∧ ((withAttr mapped6).attr = some mapped6 ∧ AttrWf mapped6) ∧
      (withAttr rawAbc).attr = some rawAbc ∧ AttrWf rawAbc :=
  ⟨⟨rfl, mapped_wf⟩, ⟨rfl, mapped6_wf⟩, rfl, rawAbc_wf⟩

/-- An offset inside the input, and one past it (V-AC-22). -/
theorem witness_DecodeAttributeFollowsThePseudocode :
    readInput (loaded wire) (20 : BitVec 16).toNat = some (wire.drop 20) ∧
      readInput (loaded wire) (0xFFFF : BitVec 16).toNat = some [] := by decide

/-- A value that ends with the input (V-AC-6). -/
theorem witness_DecodeAttributeKeepsARawRecord :
    readInput (loaded [0x80, 0x22, 0x00, 0x03, 0x61, 0x62, 0x63]) (0 : BitVec 16).toNat =
        some (0x80 :: 0x22 :: 0x00 :: 0x03 :: [0x61, 0x62, 0x63]) ∧
      be16 0x80 0x22 ≠ 0x0001 ∧ (be16 0x00 0x03).toNat ≤ ([0x61, 0x62, 0x63] : Bytes).length := by decide

/-- Both families, a non-zero reserved byte (V-AC-12, V-AC-20). -/
theorem witness_DecodeAttributeReadsAMappedAddress :
    readInput (loaded ([0x00, 0x01] ++ bytes16 8 ++ [0x7F, 0x01, 0x00, 0x50] ++ [0x0A, 0x00, 0x00, 0x01] ++ []))
        (0 : BitVec 16).toNat =
      some ([0x00, 0x01] ++ bytes16 8 ++ [0x7F, 0x01, 0x00, 0x50] ++ [0x0A, 0x00, 0x00, 0x01] ++ []) ∧
    readInput (loaded ([0x00, 0x01] ++ bytes16 20 ++ [0x00, 0x02, 0x00, 0x50] ++ List.replicate 16 0xAB ++ [0xFF]))
        (0 : BitVec 16).toNat =
      some ([0x00, 0x01] ++ bytes16 20 ++ [0x00, 0x02, 0x00, 0x50] ++ List.replicate 16 0xAB ++ [0xFF]) ∧
    (List.replicate 16 (0xAB : Byte)).length = 16 := by decide

theorem witness_AttributeRoundTrip :
    (AttrWf mapped ∧ AttrWf rawAbc) ∧
      decodeAttribute (wire.drop 27) = .ok (mapped, 12) ∧
      mapped.value = .mappedAddress 0x01 0x0050 [0x0A, 0x00, 0x00, 0x01] :=
  ⟨⟨mapped_wf, rawAbc_wf⟩, by decide, by decide⟩

theorem witness_BuildMappedAddressFollowsParseIp :
    readInput (loaded ipv4ExampleText) 0 = some ipv4ExampleText ∧
      readInput (loaded ipv6ExampleText) 0 = some ipv6ExampleText := by decide

/-- `base` with room for long inputs, and one loaded. -/
def loadedLong (n : Nat) : State := (State.setInput { base with ibufMax := 70000 } (List.replicate n 0x00))

/-- The empty payload, the largest (65535 bytes), one byte more, and type 0x0001 (V-AC-34 to V-AC-38). -/
theorem witness_BuildRawStagesThePayload :
    (readInput base 0 = some [] ∧ (0x8022 : BitVec 16) ≠ 0x0001 ∧ ([] : Bytes).length ≤ 65535) ∧
    (readInput (loadedLong 65535) 0 = some (List.replicate 65535 0x00) ∧ (0xFFFF : BitVec 16) ≠ 0x0001 ∧
      (List.replicate 65535 (0x00 : Byte)).length ≤ 65535) ∧
    (readInput (loadedLong 65536) 0 = some (List.replicate 65536 0x00) ∧
      65535 < (List.replicate 65536 (0x00 : Byte)).length) ∧
    (0x0001 : BitVec 16) = 0x0001 := by
  refine ⟨⟨rfl, by decide, by decide⟩, ⟨readInput_setInput _ _, by decide, ?_⟩, ⟨readInput_setInput _ _, ?_⟩, rfl⟩
  · rw [List.length_replicate]
  · rw [List.length_replicate]
    decide

/-- No message; the last index; the first index past the end. -/
theorem witness_LoadAttrCopiesTheIndexedAttribute :
    base.msg = none ∧ (withMsg (message .decoded)).msg = some (message .decoded) ∧
      (1 : BitVec 14).toNat < (message .decoded).attrs.length ∧
      (message .decoded).attrs.length ≤ (2 : BitVec 14).toNat := by decide

/-- MSG in each of its four states. -/
theorem witness_ReadGivesTheMessageFields :
    base.msg = none ∧ (withMsg fresh).msg = some fresh ∧ fresh.state = .building ∧
      (withMsg (message .sealed)).msg = some (message .sealed) ∧ (message .sealed).state = .sealed ∧
      (withMsg (message .decoded)).msg = some (message .decoded) ∧ (message .decoded).state = .decoded := by decide

theorem witness_ReadGivesTheAttributeFields :
    base.attr = none ∧ ((withAttr mapped6).attr = some mapped6 ∧ AttrWf mapped6) ∧
      (withAttr rawAbc).attr = some rawAbc ∧ AttrWf rawAbc :=
  ⟨rfl, ⟨rfl, mapped6_wf⟩, rfl, rawAbc_wf⟩

/-- No count, and the largest (R37). -/
theorem witness_ReadGivesConsumed :
    base.consumed = none ∧ (base.setConsumed 65539).consumed = some 65539 := by decide

theorem witness_ReadRefusesAnUnlistedSelector :
    (0x00 : BitVec 6) ∉ knownSelectors ∧ (0x08 : BitVec 6) ∉ knownSelectors ∧ (0x3F : BitVec 6) ∉ knownSelectors := by
  decide

/-- A legal command that fails, and an illegal word. -/
theorem witness_FailingCommandWritesOnlyStatus :
    ((presented 0x00000003 none).host = .command 0x00000003 none :: [] ∧
      ∃ t, step (presented 0x00000003 none) = .next t ∧ t.status ≠ 0) ∧
    (presented 0x00000000 none).host = .command 0x00000000 none :: [] ∧
      ∃ t, step (presented 0x00000000 none) = .next t ∧ t.status ≠ 0 :=
  ⟨⟨rfl, _, rfl, by decide⟩, rfl, _, rfl, by decide⟩

theorem witness_CommandsRaiseOnlyTheirErrors :
    (∃ t, exec (.packType 0x001 2) base = .next t) ∧ ∃ t, exec (.read 0x20) base = .next t := ⟨⟨_, rfl⟩, _, rfl⟩

/-- Also the two ends of the range of message selectors. -/
theorem witness_CommandsRaiseWhatIsMissing :
    base.msg = none ∧ (0x02 ≤ (0x02 : BitVec 6).toNat ∧ (0x07 : BitVec 6).toNat ≤ 0x07) ∧
      (withMsg fresh).attr = none ∧ (withMsg fresh).msg = some fresh ∧ fresh.state = .building := by decide

theorem witness_CommandsLeaveTheInputSide : ∃ t, exec .deserialize (loaded wire) = .next t := ⟨_, rfl⟩

/-- A command that does not write OBUF, and a failing one that otherwise does. -/
theorem witness_OnlyFiveCommandsWriteObuf :
    (∃ t, exec .deserialize (loaded wire) = .next t ∧ writesObuf .deserialize = false) ∧
      exec .serialize base = .next (base.setStatus 10) ∧ (base.setStatus 10).status ≠ 0 :=
  ⟨⟨_, rfl, rfl⟩, rfl, by decide⟩

theorem witness_OutputCommandsWriteBelowOlen :
    ∃ t, exec .serialize (withMsg fresh) = .next t ∧ writesObuf .serialize = true ∧ t.status = 0 := ⟨_, rfl, rfl, rfl⟩

theorem witness_RegistersChangeOnlyByTheirCommands :
    ∃ t, exec .encodeAttribute (withAttr rawAbc) = .next t ∧ writesAttr .encodeAttribute = false := ⟨_, rfl, rfl⟩

/-- Every way a message may change, and one that leaves it. -/
theorem witness_MessageChangesAsTheLifecycleSays :
    (withMsg fresh).msg = some fresh ∧ (∃ t, exec (.packType 0x001 0) (withMsg fresh) = .next t) ∧
      (∃ t, exec (.construct 0x001 1) ((withMsg fresh).setEnt (some e0)) = .next t) ∧
      (∃ t, exec .deserialize ((loaded wire).setMsg fresh) = .next t) ∧
      (∃ t, exec .serialize (withMsg fresh) = .next t) ∧
      ∃ t, exec .addAttribute ((withMsg fresh).setAttr mapped) = .next t :=
  ⟨rfl, ⟨_, rfl⟩, ⟨_, rfl⟩, ⟨_, rfl⟩, ⟨_, rfl⟩, _, rfl⟩

/-- A load of exactly IBUF_MAX bytes. -/
theorem witness_LoadIsSeenByTheNextCommand :
    (base.setHost [.loadInput (List.replicate 100 0x61)]).host = .loadInput (List.replicate 100 0x61) :: [] ∧
      (List.replicate 100 (0x61 : Byte)).length ≤ (base.setHost [.loadInput (List.replicate 100 0x61)]).ibufMax := by
  decide

/-- One byte more. -/
theorem witness_OverlongLoadIsRefused :
    (base.setHost [.loadInput (List.replicate 101 0x61)]).host = .loadInput (List.replicate 101 0x61) :: [] ∧
      (base.setHost [.loadInput (List.replicate 101 0x61)]).ibufMax < (List.replicate 101 (0x61 : Byte)).length := by
  decide

theorem witness_ResetActionGivesTheResetValues : (base.setHost [.assertReset]).host = .assertReset :: [] := rfl

theorem witness_IdleStepChangesNothing : base.host = [] := rfl

/-- A state no reset gives that meets the invariant: a message, a staged attribute, a count, an output, an input. -/
def busy : State := (((loaded [0x61]).setMsg (message .building)).setAttr mapped).setConsumed 4

theorem busy_inv : Inv busy where
  msg := fun m h => by cases h; exact message_wf _
  attr := fun a h => by cases h; exact mapped_wf
  consumed := fun k h => by cases h; decide
  status := by decide
  obuf := ⟨Memory.wf_nil, (fun c hc => by cases hc), (fun a ha => absurd ha (Nat.not_lt_zero a)), by decide⟩
  ibuf := ⟨by decide, by decide, (fun a ha => by rw [Nat.lt_one_iff.1 ha]; decide), by decide⟩

theorem witness_StepKeepsTheInvariant :
    Inv (busy.setHost [.command 0x00000002 none]) ∧
      ∃ t, step (busy.setHost [.command 0x00000002 none]) = .next t :=
  ⟨⟨busy_inv.msg, busy_inv.attr, busy_inv.consumed, busy_inv.status, busy_inv.obuf, busy_inv.ibuf⟩, _, rfl⟩

/-- A load of exactly IBUF_MAX bytes is still to come. -/
theorem witness_StepNeverStopsALegalHost :
    Inv (busy.setHost [.command 0x00000003 none, .loadInput (List.replicate 100 0x61)]) ∧
      HostLegal (busy.setHost [.command 0x00000003 none, .loadInput (List.replicate 100 0x61)]) := by
  refine ⟨⟨busy_inv.msg, busy_inv.attr, busy_inv.consumed, busy_inv.status, busy_inv.obuf, busy_inv.ibuf⟩, ?_⟩
  intro bytes h
  rcases List.mem_cons.1 h with h | h
  · cases h
  · cases List.mem_singleton.1 h
    decide

/-- Two states that differ in a byte of OBUF at OLEN and a byte of IBUF at IBUF_LEN. -/
theorem witness_BytesWithoutValueNeverMatter :
    SameValid { presented 0x00000130 none with obuf := [(0, 0x01)], ibuf := [(0, 0x02)] }
        { presented 0x00000130 none with obuf := [(0, 0xFF)], ibuf := [(0, 0xFE)] } ∧
      ∃ t, step { presented 0x00000130 none with obuf := [(0, 0x01)], ibuf := [(0, 0x02)] } = .next t :=
  ⟨⟨rfl, rfl, rfl, rfl, rfl, fun a ha => absurd ha (Nat.not_lt_zero a), rfl, fun a ha => absurd ha (Nat.not_lt_zero a),
    rfl, rfl, rfl⟩, _, rfl⟩

end Sys2Proof.Tests
end

section
/-! Family 00_scope. The block never stops (R13, R67, R253, R257), where an output command writes (R18, R23, R78), and
PARSE_IP's two laws (R14). In order: the buffers and well-formed data, how every update keeps the invariant, what a
command changes and that it completes, then the step. -/

namespace Sys2Proof

open Sys2Proof.Machine

section StateLemmas

variable {s t : State}

/-! ### Buffers and well-formed data -/

theorem bufferWf_nil (cap : Nat) : BufferWf [] 0 cap where
  canonical := Memory.wf_nil
  bounded := fun _ hc => absurd hc List.not_mem_nil
  covered := fun a ha => absurd ha (Nat.not_lt_zero a)
  fits := Nat.zero_le cap

/-- A written string is exactly what is valid afterwards. -/
theorem BufferWf.writeFromZero {m : Memory} {valid cap : Nat} (h : BufferWf m valid cap) {bytes : Bytes}
    (hb : bytes.length ≤ cap) : BufferWf (m.writeFromZero bytes) bytes.length cap where
  canonical := Memory.writeFromZero_wf h.canonical bytes
  bounded := Memory.writeFromZero_bounded h.bounded hb
  covered := fun a ha => by simp [Memory.read_writeFromZero, ha]
  fits := hb

theorem AttrWf.addr_length_le {a : Attribute} (h : AttrWf a) {family : BitVec 8} {port : BitVec 16} {addr : Bytes}
    (hv : a.value = .mappedAddress family port addr) : addr.length ≤ 16 := by
  simp only [AttrWf, hv] at h
  omega

theorem AttrWf.payload_length {a : Attribute} (h : AttrWf a) {payload : Bytes} (hv : a.value = .raw payload) :
    payload.length = a.declaredLength.toNat := by
  simp only [AttrWf, hv] at h
  exact h.2.symm

/-- A fresh message of CONSTRUCT is well-formed (R150). -/
theorem msgWf_constructed (method : BitVec 12) (cls : BitVec 2) (id : Txid) :
    MsgWf ⟨.building, method, cls, 0, magicCookie, id, []⟩ where
  attrs := fun _ ha => absurd ha List.not_mem_nil
  length := rfl
  cookie := fun _ => rfl

/-- An append that does not overflow the length keeps WF_MSG (R154, R155). -/
theorem MsgWf.append {m : Message} {a : Attribute} (hm : MsgWf m) (ha : AttrWf a) (hl : appendedLength m a ≤ 65535) :
    MsgWf { m with attrs := m.attrs ++ [a], length := BitVec.ofNat 16 (appendedLength m a) } where
  attrs := fun b hb => by
    rcases List.mem_append.1 hb with hb | hb
    · exact hm.attrs b hb
    · exact List.mem_singleton.1 hb ▸ ha
  length := by
    have hlen := hm.length
    rw [attrsLength_append, attrsLength_cons, attrsLength_nil, ← hlen, BitVec.toNat_ofNat,
      Nat.mod_eq_of_lt (by omega), appendedLength]
    omega
  cookie := hm.cookie

theorem MsgWf.sealMessage {m : Message} (hm : MsgWf m) : MsgWf (sealMessage m) := by
  unfold Machine.sealMessage
  split
  · next hb => exact ⟨hm.attrs, hm.length, fun _ => hm.cookie (by rw [hb]; decide)⟩
  · exact hm

/-- DESERIALIZE answers well-formed messages only (R35, R163). -/
theorem msgWf_of_deserialize {bytes : Bytes} {m : Message} (h : deserialize bytes = .ok m) : MsgWf m := by
  by_cases hlen : bytes.length < 20
  · rw [deserialize_short hlen] at h
    cases h
  · obtain ⟨w, len, cookie, id, body, rfl⟩ := header_split (Nat.le_of_not_lt hlen)
    rw [deserialize_header] at h
    cases hattrs : deserializeAttrs maxPasses body len.toNat [] with
    | error e =>
      rw [hattrs] at h
      cases h
    | ok attrs =>
      rw [hattrs] at h
      cases h
      obtain ⟨new, rfl, hwf, hsum⟩ := deserializeAttrs_ok hattrs
      exact ⟨hwf, hsum.symm, fun hne => absurd rfl hne⟩

/-- OBUF_SIZE suffices for any message: a header of 20 bytes and at most 65535 bytes of records (R13, R159). -/
theorem serialize_length_le {m : Message} (hm : MsgWf m) : (serialize m).length ≤ 65555 := by
  have hlen := hm.length
  simp only [serialize, List.length_append, bytes16_length, Vector.length_toList,
    flatMap_encodeAttribute_length hm.attrs]
  omega

theorem encodeAttribute_length_le {a : Attribute} (ha : AttrWf a) : (encodeAttribute a).length ≤ 65555 := by
  rw [encodeAttribute_length ha]
  omega

theorem errorCode_ne_zero (e : ErrorKind) : errorCode e ≠ 0 := by
  cases e <;> decide

theorem errorCode_ne_fifteen (e : ErrorKind) : errorCode e ≠ 15 := by
  cases e <;> decide

/-! ### Every update keeps the invariant -/

theorem Inv.setHost (hi : Inv s) (rest : List HostAction) : Inv (s.setHost rest) := { hi with }

theorem Inv.present (hi : Inv s) (draw : Option Txid) (rest : List HostAction) : Inv (present draw rest s) :=
  { hi with }

theorem Inv.setMsg (hi : Inv s) {m : Message} (hm : MsgWf m) : Inv (s.setMsg m) :=
  { hi with msg := fun _ h => Option.some.inj h ▸ hm }

theorem Inv.setAttr (hi : Inv s) {a : Attribute} (ha : AttrWf a) : Inv (s.setAttr a) :=
  { hi with attr := fun _ h => Option.some.inj h ▸ ha }

theorem Inv.setConsumed (hi : Inv s) {k : BitVec 17} (hk : 4 ≤ k.toNat ∧ k.toNat ≤ 65539) : Inv (s.setConsumed k) :=
  { hi with consumed := fun _ h => Option.some.inj h ▸ hk }

theorem Inv.setOutput (hi : Inv s) {out : Bytes} (h : out.length ≤ 65555) : Inv (s.setOutput out) :=
  { hi with obuf := olen_of_le h ▸ hi.obuf.writeFromZero h }

theorem Inv.setInput (hi : Inv s) {bytes : Bytes} (h : bytes.length ≤ s.ibufMax) : Inv (s.setInput bytes) :=
  { hi with ibuf := hi.ibuf.writeFromZero h }

theorem Inv.ok (hi : Inv s) : Inv (ok s) := { hi with status := by rw [ok_status]; decide }

theorem Inv.raise (hi : Inv s) (e : ErrorKind) : Inv (raise e s) := { hi with status := errorCode_ne_fifteen e }

theorem inv_assertReset (s : State) : Inv (assertReset s) where
  msg := fun _ h => nomatch h
  attr := fun _ h => nomatch h
  consumed := fun _ h => nomatch h
  status := by rw [assertReset_status]; decide
  obuf := bufferWf_nil _
  ibuf := bufferWf_nil _

/-! ### What a command changes -/

/-- Everything a command may do, with the registers it may write (R23, R255): fail, replace the slot, write ATTR, write
ATTR and CONSUMED, write an output, or write the message's output and seal it. -/
inductive CommandEffect (i : Instr) (s : State) : State → Prop where
  | failed (e : ErrorKind) : CommandEffect i s (raise e s)
  | replacedMsg (m : Message) (hm : (∃ method cls, i = .construct method cls) ∨ i = .addAttribute ∨ i = .deserialize) :
      CommandEffect i s (ok (s.setMsg m))
  | staged (a : Attribute) (ha : writesAttr i = true) : CommandEffect i s (ok (s.setAttr a))
  | stagedCounted (a : Attribute) (k : BitVec 17) (hk : ∃ off, i = .decodeAttribute off) :
      CommandEffect i s (ok ((s.setAttr a).setConsumed k))
  | output (out : Bytes) (ho : writesObuf i = true) (hl : out.length ≤ 65555) :
      CommandEffect i s (ok (s.setOutput out))
  | sealedOutput (m : Message) (hs : i = .serialize) (hm : s.msg = some m) (hl : (serialize m).length ≤ 65555) :
      CommandEffect i s (ok ((s.setMsg (sealMessage m)).setOutput (serialize m)))

/-- What `MemWrite(OBUF, out)` says of OBUF, in terms of the OLEN it leaves (R18). -/
theorem WritesOutput.readable_and_above {out : Bytes} (h : WritesOutput s t out) :
    t.output ≠ none ∧ ∀ a, t.olen.toNat ≤ a → t.obuf.read a = s.obuf.read a :=
  ⟨by simp [h.output], fun a ha => h.above a (h.olen ▸ ha)⟩

theorem writesObuf_of_writesAttr {i : Instr} (h : writesAttr i = true) : writesObuf i = false := by
  cases i
  case decodeAttribute | buildMappedAddress | buildRaw | loadAttr => rfl
  all_goals cases h

theorem exec_effect {i : Instr} (h : exec i s = .next t) : CommandEffect i s t := by
  cases i with
  | construct method cls =>
    obtain ⟨-, rfl⟩ | ⟨id, -, rfl⟩ := execConstruct_next h
    · exact .failed _
    · exact .replacedMsg _ (.inl ⟨method, cls, rfl⟩)
  | addAttribute =>
    obtain ⟨-, rfl⟩ | ⟨m, -, ⟨-, rfl⟩ | ⟨-, -, rfl⟩ | ⟨a, -, -, ⟨-, rfl⟩ | ⟨-, rfl⟩⟩⟩ := execAddAttribute_next h
    · exact .failed _
    · exact .failed _
    · exact .failed _
    · exact .failed _
    · exact .replacedMsg _ (.inr (.inl rfl))
  | serialize =>
    obtain ⟨-, rfl⟩ | ⟨m, hm, hl, rfl⟩ := execSerialize_next h
    · exact .failed _
    · exact .sealedOutput m rfl hm hl
  | deserialize =>
    obtain ⟨bytes, -, ⟨e, -, rfl⟩ | ⟨m, -, rfl⟩⟩ := execDeserialize_next h
    · exact .failed e
    · exact .replacedMsg m (.inr (.inr rfl))
  | encodeAttribute =>
    obtain ⟨-, rfl⟩ | ⟨a, -, hl, rfl⟩ := execEncodeAttribute_next h
    · exact .failed _
    · exact .output _ rfl hl
  | decodeAttribute off =>
    obtain ⟨bytes, -, ⟨e, -, rfl⟩ | ⟨a, k, -, rfl⟩⟩ := execDecodeAttribute_next h
    · exact .failed e
    · exact .stagedCounted a _ ⟨off, rfl⟩
  | buildMappedAddress port =>
    obtain ⟨text, -, ⟨e, -, rfl⟩ | ⟨a, -, rfl⟩⟩ := execBuildMappedAddress_next h
    · exact .failed e
    · exact .staged a rfl
  | buildRaw typeCode =>
    obtain ⟨payload, -, ⟨e, -, rfl⟩ | ⟨a, -, rfl⟩⟩ := execBuildRaw_next h
    · exact .failed e
    · exact .staged a rfl
  | loadAttr index =>
    obtain ⟨-, rfl⟩ | ⟨m, -, ⟨-, rfl⟩ | ⟨a, -, rfl⟩⟩ := execLoadAttr_next h
    · exact .failed _
    · exact .failed _
    · exact .staged a rfl
  | packType method cls =>
    obtain rfl := execPackType_next h
    exact .output _ rfl (by simp)
  | unpackType word =>
    obtain rfl := execUnpackType_next h
    exact .output _ rfl (by simp)
  | read field =>
    obtain ⟨-, rfl⟩ | ⟨sel, -, ⟨e, -, rfl⟩ | ⟨out, -, hl, rfl⟩⟩ := execRead_next h
    · exact .failed _
    · exact .failed e
    · exact .output out rfl hl

/-- No command touches the input side: IBUF, its length and capacity, the entropy port, the host's further actions
(R40, R286). -/
theorem exec_input_frame {i : Instr} (h : exec i s = .next t) :
    t.ibuf = s.ibuf ∧ t.ibufLen = s.ibufLen ∧ t.ibufMax = s.ibufMax ∧ t.ent = s.ent ∧ t.host = s.host := by
  cases exec_effect h <;> exact ⟨rfl, rfl, rfl, rfl, rfl⟩

/-- Every command keeps the invariant. -/
theorem exec_keeps_inv {i : Instr} (hi : Inv s) (h : exec i s = .next t) : Inv t := by
  cases i with
  | construct method cls =>
    obtain ⟨-, rfl⟩ | ⟨id, -, rfl⟩ := execConstruct_next h
    · exact hi.raise _
    · exact (hi.setMsg (msgWf_constructed method cls id)).ok
  | addAttribute =>
    obtain ⟨-, rfl⟩ | ⟨m, hm, ⟨-, rfl⟩ | ⟨-, -, rfl⟩ | ⟨a, -, ha, ⟨-, rfl⟩ | ⟨hl, rfl⟩⟩⟩ := execAddAttribute_next h
    · exact hi.raise _
    · exact hi.raise _
    · exact hi.raise _
    · exact hi.raise _
    · exact (hi.setMsg ((hi.msg m hm).append (hi.attr a ha) hl)).ok
  | serialize =>
    obtain ⟨-, rfl⟩ | ⟨m, hm, hl, rfl⟩ := execSerialize_next h
    · exact hi.raise _
    · exact ((hi.setMsg (hi.msg m hm).sealMessage).setOutput hl).ok
  | deserialize =>
    obtain ⟨bytes, -, ⟨e, -, rfl⟩ | ⟨m, hm, rfl⟩⟩ := execDeserialize_next h
    · exact hi.raise e
    · exact (hi.setMsg (msgWf_of_deserialize hm)).ok
  | decodeAttribute off =>
    obtain ⟨bytes, -, ⟨e, -, rfl⟩ | ⟨a, k, hd, rfl⟩⟩ := execDecodeAttribute_next h
    · exact hi.raise e
    · obtain ⟨ha, rfl⟩ := decodeAttribute_ok_wf hd
      refine ((hi.setAttr ha).setConsumed ?_).ok
      rw [BitVec.toNat_ofNat]
      omega
  | buildMappedAddress port =>
    obtain ⟨text, -, ⟨e, -, rfl⟩ | ⟨a, ha, rfl⟩⟩ := execBuildMappedAddress_next h
    · exact hi.raise e
    · exact (hi.setAttr (buildMappedAddress_ok ha)).ok
  | buildRaw typeCode =>
    obtain ⟨payload, -, ⟨e, -, rfl⟩ | ⟨a, ha, rfl⟩⟩ := execBuildRaw_next h
    · exact hi.raise e
    · exact (hi.setAttr (buildRaw_ok ha)).ok
  | loadAttr index =>
    obtain ⟨-, rfl⟩ | ⟨m, hm, ⟨-, rfl⟩ | ⟨a, ha, rfl⟩⟩ := execLoadAttr_next h
    · exact hi.raise _
    · exact hi.raise _
    · exact (hi.setAttr ((hi.msg m hm).attrs a (List.mem_of_getElem? ha))).ok
  | encodeAttribute | packType | unpackType | read =>
    cases exec_effect h with
    | failed e => exact hi.raise e
    | output out _ hl => exact (hi.setOutput hl).ok
    | replacedMsg _ hm => simp at hm
    | staged _ ha => cases ha
    | stagedCounted _ _ hk => simp at hk
    | sealedOutput _ hs => cases hs

/-! ### Every command completes -/

theorem readMsg_ok_iff {field : Message → Bytes} {out : Bytes} :
    readMsg s field = .ok out ↔ ∃ m, s.msg = some m ∧ field m = out := by
  unfold readMsg
  cases s.msg <;> simp

theorem readAttr_ok_iff {field : Attribute → Option Bytes} {out : Bytes} :
    readAttr s field = .ok out ↔ ∃ a, s.attr = some a ∧ field a = some out := by
  unfold readAttr
  cases s.attr with
  | none => simp
  | some a => cases h : field a <;> simp [h]

/-- No field is longer than OBUF: all are short but a raw payload, whose length has 16 bits (R13, R34). -/
theorem readField_length_le (hi : Inv s) {sel : Selector} {out : Bytes} (h : readField sel s = .ok out) :
    out.length ≤ 65555 := by
  cases sel
  case msgState =>
    cases h
    simp
  case method | cls | length | cookie | txid | attrCount =>
    simp only [readField, readMsg_ok_iff] at h
    obtain ⟨m, -, rfl⟩ := h
    simp
  case attrKind | attrType | attrDlen | attrFamily | attrPort =>
    simp only [readField, readAttr_ok_iff] at h
    obtain ⟨⟨typeCode, dl, _ | _⟩, -, ha⟩ := h <;> cases ha <;> simp
  case attrAddr =>
    obtain ⟨⟨typeCode, dl, _ | _⟩, hs, ha⟩ := readAttr_ok_iff.1 h <;> cases ha
    have := (hi.attr _ hs).addr_length_le rfl
    omega
  case attrPayload =>
    obtain ⟨⟨typeCode, dl, _ | _⟩, hs, ha⟩ := readAttr_ok_iff.1 h <;> cases ha
    have := (hi.attr _ hs).payload_length rfl
    omega
  case consumed =>
    simp only [readField] at h
    split at h
    · cases h
    · cases h
      simp [bytes32]

theorem emit_completes {out : Bytes} (s : State) (h : out.length ≤ 65555) : ∃ t, emit out s = .next t :=
  ⟨_, emit_of_le s h⟩

/-- A command that answers a next state on every input completes: no valid byte of IBUF is missing (R67). -/
theorem withInput_completes (hi : Inv s) (off : Nat) {run : Bytes → Host.Outcome State Fault Refusal}
    (h : ∀ bytes, ∃ t, run bytes = .next t) : ∃ t, withInput s off run = .next t := by
  obtain ⟨bytes, hb⟩ := readInput_isSome hi.ibuf.covered off
  rw [withInput_of_some hb]
  exact h bytes

theorem execAddAttribute_completes (s : State) : ∃ t, execAddAttribute s = .next t := by
  unfold execAddAttribute
  cases s.msg with
  | none => exact ⟨_, rfl⟩
  | some m =>
    by_cases hb : m.state = .building
    · simp only [hb]
      cases s.attr <;> exact ⟨_, rfl⟩
    · exact ⟨_, if_pos hb⟩

theorem execSerialize_completes (hi : Inv s) : ∃ t, execSerialize s = .next t := by
  unfold execSerialize
  cases hm : s.msg with
  | none => exact ⟨_, rfl⟩
  | some m => exact emit_completes _ (serialize_length_le (hi.msg m hm))

theorem execEncodeAttribute_completes (hi : Inv s) : ∃ t, execEncodeAttribute s = .next t := by
  unfold execEncodeAttribute
  cases ha : s.attr with
  | none => exact ⟨_, rfl⟩
  | some a => exact emit_completes _ (encodeAttribute_length_le (hi.attr a ha))

theorem execDecodeAttribute_completes (hi : Inv s) (off : BitVec 16) : ∃ t, execDecodeAttribute off s = .next t := by
  refine withInput_completes hi _ fun bytes => ?_
  cases decodeAttribute bytes <;> exact ⟨_, rfl⟩

theorem execLoadAttr_completes (index : BitVec 14) (s : State) : ∃ t, execLoadAttr index s = .next t := by
  unfold execLoadAttr
  cases s.msg with
  | none => exact ⟨_, rfl⟩
  | some m => cases hg : m.attrs[index.toNat]? <;> simp [hg]

theorem execPackType_completes (method : BitVec 12) (cls : BitVec 2) (s : State) :
    ∃ t, execPackType method cls s = .next t := by
  unfold execPackType
  exact emit_completes s (by simp)

theorem execUnpackType_completes (word : BitVec 16) (s : State) : ∃ t, execUnpackType word s = .next t := by
  unfold execUnpackType
  exact emit_completes s (by simp)

theorem execRead_completes (hi : Inv s) (field : BitVec 6) : ∃ t, execRead field s = .next t := by
  unfold execRead
  cases selectorOf field with
  | none => exact ⟨_, rfl⟩
  | some sel =>
    cases hr : readField sel s with simp only [hr]
    | error e => exact ⟨_, rfl⟩
    | ok out => exact emit_completes s (readField_length_le hi hr)

/-- No command meets a fault in a state that meets the invariant (R13, R67). -/
theorem exec_completes (hi : Inv s) (i : Instr) : ∃ t, exec i s = .next t := by
  cases i with
  | construct method cls => exact ⟨_, rfl⟩
  | addAttribute => exact execAddAttribute_completes s
  | serialize => exact execSerialize_completes hi
  | deserialize => exact withInput_completes hi 0 fun _ => ⟨_, rfl⟩
  | encodeAttribute => exact execEncodeAttribute_completes hi
  | decodeAttribute off => exact execDecodeAttribute_completes hi off
  | buildMappedAddress port => exact withInput_completes hi 0 fun _ => ⟨_, rfl⟩
  | buildRaw typeCode => exact withInput_completes hi 0 fun _ => ⟨_, rfl⟩
  | loadAttr index => exact execLoadAttr_completes index s
  | packType method cls => exact execPackType_completes method cls s
  | unpackType word => exact execUnpackType_completes word s
  | read field => exact execRead_completes hi field

/-! ### The step -/

theorem step_keeps_inv (hi : Inv s) (h : step s = .next t) : Inv t := by
  obtain ⟨-, rfl⟩ | ⟨bytes, rest, -, hl, rfl⟩ | ⟨rest, -, rfl⟩ | ⟨w, draw, rest, -, ⟨-, rfl⟩ | ⟨i, -, hx⟩⟩ := step_next h
  · exact hi
  · exact (hi.setHost rest).setInput hl
  · exact inv_assertReset _
  · exact (hi.present draw rest).raise _
  · exact exec_keeps_inv (hi.present draw rest) hx

/-- The host's duty passes to any state whose pending actions were pending before, with the same IBUF_MAX. -/
theorem HostLegal.of_subset (hl : HostLegal s) (hh : t.host ⊆ s.host) (hmax : t.ibufMax = s.ibufMax) : HostLegal t :=
  fun bytes hb => hmax ▸ hl bytes (hh hb)

theorem step_keeps_hostLegal (hl : HostLegal s) (h : step s = .next t) : HostLegal t := by
  obtain ⟨-, rfl⟩ | ⟨bytes, rest, hh, -, rfl⟩ | ⟨rest, hh, rfl⟩ | ⟨w, draw, rest, hh, ⟨-, rfl⟩ | ⟨i, -, hx⟩⟩ :=
    step_next h
  · exact hl
  · exact hl.of_subset (hh ▸ List.subset_cons_self _ _) rfl
  · exact hl.of_subset (hh ▸ List.subset_cons_self _ _) rfl
  · exact hl.of_subset (hh ▸ List.subset_cons_self _ _) rfl
  · obtain ⟨-, -, hmax, -, hhost⟩ := exec_input_frame hx
    refine hl.of_subset ?_ hmax
    rw [hhost, hh]
    exact List.subset_cons_self _ _

/-- A step completes: the host's duty rules out the refusal of a load, the invariant the faults of a command. -/
theorem step_completes (hi : Inv s) (hl : HostLegal s) : ∃ t, step s = .next t := by
  unfold step
  split
  · exact ⟨s, rfl⟩
  · next bytes rest hh => exact ⟨_, if_pos (hl bytes (hh ▸ List.mem_cons_self))⟩
  · exact ⟨_, rfl⟩
  · next w draw rest hh =>
    split
    · exact ⟨_, rfl⟩
    · next i _ => exact exec_completes (hi.present draw rest) i

end StateLemmas

/-! ### The obligations -/

/-- Settles O54: a step completes, and it keeps the invariant and the host's duty. -/
theorem stepNeverStopsALegalHost : Obligations.StepNeverStopsALegalHost := by
  intro s hi hl
  obtain ⟨t, ht⟩ := step_completes hi hl
  exact ⟨t, ht, step_keeps_inv hi ht, step_keeps_hostLegal hl ht⟩

/-- Settles O44: a success of these commands is `MemWrite` of an output, after the seal if the command is SERIALIZE. -/
theorem outputCommandsWriteBelowOlen : Obligations.OutputCommandsWriteBelowOlen := by
  intro i s t h hwrites hstatus
  cases exec_effect h with
  | failed e => exact absurd hstatus (errorCode_ne_zero e)
  | output out _ hl =>
    obtain ⟨hread, habove⟩ := (writesOutput_ok_setOutput s hl).readable_and_above
    exact ⟨hread, habove, rfl, rfl, fun _ => rfl⟩
  | sealedOutput m hs _ hl =>
    obtain ⟨hread, habove⟩ := (writesOutput_ok_setOutput (s.setMsg (sealMessage m)) hl).readable_and_above
    exact ⟨hread, habove, rfl, rfl, fun hne => absurd hs hne⟩
  | replacedMsg m hm => obtain ⟨_, _, rfl⟩ | rfl | rfl := hm <;> cases hwrites
  | staged a ha => exact absurd (hwrites.symm.trans (writesObuf_of_writesAttr ha)) (by decide)
  | stagedCounted a k hk =>
    obtain ⟨off, rfl⟩ := hk
    cases hwrites

/-- Settles O31: both texts are the model's own, and the first is not the second. -/
theorem parseIpMeetsItsLaws : Obligations.ParseIpMeetsItsLaws := by
  refine ⟨?_, Config.parseIpV6Example, ?_⟩
  · exact if_pos rfl
  · rw [parseIp, if_neg (by decide)]
    exact if_pos rfl

end Sys2Proof
end

section
/-! Family 10_state. The invariant at reset and at every step (R34 to R40, R45), bytes without a value (R39, R43), which
command writes which register (R23, R24, R40), the host's load (R44) and READ of the message (R231, R232). In order: the
input after a load, the step on each pending action, what states that differ in such bytes alone share, the lifecycle of
a message, then READ. -/

namespace Sys2Proof

open Sys2Proof.Machine

section StateFamily

variable {s t : State}

/-! ### The input after a load -/

/-- What was written is what is read, from any index on. -/
theorem readBytes_writeFromZero_from (m : Memory) (bytes : Bytes) {off : Nat} (h : off ≤ bytes.length) :
    (m.writeFromZero bytes).readBytes off (bytes.length - off) = some (bytes.drop off) := by
  refine Memory.readBytes_eq_some_iff.2 ⟨List.length_drop, fun i hi => ?_⟩
  rw [Memory.read_writeFromZero, if_pos (by omega), List.getElem?_drop]

theorem readInput_setInput_from (s : State) (bytes : Bytes) (off : Nat) :
    readInput (s.setInput bytes) off = some (bytes.drop off) := by
  rw [readInput, State.setInput_ibuf, State.setInput_ibufLen]
  split
  · next h => exact readBytes_writeFromZero_from s.ibuf bytes h
  · next h => rw [List.drop_eq_nil_of_le (by omega)]

/-! ### The step on each pending action -/

theorem step_loadInput {bytes : Bytes} {rest : List HostAction} (h : s.host = .loadInput bytes :: rest) :
    step s = loadInput bytes (s.setHost rest) := by
  simp only [step, h]

theorem step_command {w : CmdWord} {draw : Option Txid} {rest : List HostAction} {i : Instr}
    (h : s.host = .command w draw :: rest) (hw : decode w = .ok i) : step s = exec i (present draw rest s) := by
  simp only [step, h, fetch, hw]

/-! ### States that differ in bytes without a value alone

Every register update takes such a pair to such a pair, and every read that the block makes gives the same in both. -/

theorem SameValid.setStatus (h : SameValid s t) (v : BitVec 4) : SameValid (s.setStatus v) (t.setStatus v) :=
  { h with status := rfl }

theorem SameValid.ok (h : SameValid s t) : SameValid (ok s) (ok t) := h.setStatus _

theorem SameValid.raise (h : SameValid s t) (e : ErrorKind) : SameValid (raise e s) (raise e t) := h.setStatus _

theorem SameValid.setMsg (h : SameValid s t) (m : Message) : SameValid (s.setMsg m) (t.setMsg m) :=
  { h with msg := rfl }

theorem SameValid.setAttr (h : SameValid s t) (a : Attribute) : SameValid (s.setAttr a) (t.setAttr a) :=
  { h with attr := rfl }

theorem SameValid.setConsumed (h : SameValid s t) (k : BitVec 17) : SameValid (s.setConsumed k) (t.setConsumed k) :=
  { h with consumed := rfl }

theorem SameValid.setHost (h : SameValid s t) (rest : List HostAction) : SameValid (s.setHost rest) (t.setHost rest) :=
  { h with host := rfl }

theorem SameValid.present (h : SameValid s t) (draw : Option Txid) (rest : List HostAction) :
    SameValid (present draw rest s) (present draw rest t) :=
  { h with host := rfl, ent := rfl }

/-- A write decides every byte below its length. -/
theorem read_writeFromZero_eq (m m' : Memory) {bytes : Bytes} {a : Nat} (h : a < bytes.length) :
    (m.writeFromZero bytes).read a = (m'.writeFromZero bytes).read a := by
  rw [Memory.read_writeFromZero, Memory.read_writeFromZero, if_pos h, if_pos h]

theorem SameValid.setOutput (h : SameValid s t) (out : Bytes) : SameValid (s.setOutput out) (t.setOutput out) :=
  { h with
    olen := rfl
    obuf := fun a ha => read_writeFromZero_eq _ _ <| by
      rw [State.setOutput_olen, BitVec.toNat_ofNat] at ha
      exact lt_of_lt_of_le ha (Nat.mod_le _ _) }

theorem SameValid.setInput (h : SameValid s t) (bytes : Bytes) : SameValid (s.setInput bytes) (t.setInput bytes) :=
  { h with ibufLen := rfl, ibuf := fun _ ha => read_writeFromZero_eq _ _ ha }

theorem SameValid.assertReset (h : SameValid s t) : SameValid (assertReset s) (assertReset t) where
  msg := rfl
  attr := rfl
  consumed := rfl
  status := rfl
  olen := rfl
  obuf := fun _ _ => rfl
  ibufLen := rfl
  ibuf := fun _ _ => rfl
  ibufMax := h.ibufMax
  ent := h.ent
  host := h.host

theorem SameValid.readInput_eq (h : SameValid s t) (off : Nat) : readInput s off = readInput t off := by
  unfold readInput
  rw [← h.ibufLen]
  split
  · exact Memory.readBytes_congr fun i hi => h.ibuf _ (by omega)
  · rfl

theorem SameValid.output_eq (h : SameValid s t) : s.output = t.output := by
  unfold State.output
  rw [← h.olen]
  exact Memory.readBytes_congr fun i hi => h.obuf _ (by omega)

theorem SameValid.readField_eq (h : SameValid s t) (sel : Selector) : readField sel s = readField sel t := by
  simp only [readField, readMsg, readAttr, State.msgStateCode, h.msg, h.attr, h.consumed]

theorem SameValid.observe_eq (h : SameValid s t) : observe s = observe t := by
  simp only [observe, h.status, h.output_eq, h.olen, h.readField_eq]

/-! ### Bytes without a value do not decide an outcome -/

/-- Two outcomes of the same kind: next states that differ in bytes without a value alone, or the same stop. -/
inductive SameOutcome : Host.Outcome State Fault Refusal → Host.Outcome State Fault Refusal → Prop where
  | next {s t : State} (h : SameValid s t) : SameOutcome (.next s) (.next t)
  | fault (r : Fault) : SameOutcome (.fault r) (.fault r)
  | refused (r : Refusal) : SameOutcome (.refused r) (.refused r)

theorem SameOutcome.next_left {o : Host.Outcome State Fault Refusal} (h : SameOutcome (.next s) o) :
    ∃ t, o = .next t ∧ SameValid s t := by
  cases h with
  | next h => exact ⟨_, rfl, h⟩

theorem SameValid.raises (h : SameValid s t) (e : ErrorKind) :
    SameOutcome (.next (Machine.raise e s)) (.next (Machine.raise e t)) := .next (h.raise e)

theorem SameValid.emit (h : SameValid s t) (out : Bytes) : SameOutcome (emit out s) (emit out t) := by
  unfold Machine.emit
  split
  · exact .next (h.setOutput out).ok
  · exact .fault _

theorem SameValid.withInput (h : SameValid s t) (off : Nat) {run run' : Bytes → Host.Outcome State Fault Refusal}
    (hrun : ∀ bytes, SameOutcome (run bytes) (run' bytes)) :
    SameOutcome (withInput s off run) (withInput t off run') := by
  unfold Machine.withInput
  rw [h.readInput_eq]
  cases readInput t off with
  | none => exact .fault _
  | some bytes => exact hrun bytes

theorem SameValid.replaceMsg (h : SameValid s t) (made : Except ErrorKind Message) :
    SameOutcome (.next (replaceMsg made s)) (.next (replaceMsg made t)) := by
  cases made with
  | error e => exact h.raises e
  | ok m => exact .next (h.setMsg m).ok

theorem SameValid.stageBuilt (h : SameValid s t) (built : Except ErrorKind Attribute) :
    SameOutcome (.next (stageBuilt built s)) (.next (stageBuilt built t)) := by
  cases built with
  | error e => exact h.raises e
  | ok a => exact .next (h.setAttr a).ok

theorem SameValid.execAddAttribute (h : SameValid s t) : SameOutcome (execAddAttribute s) (execAddAttribute t) := by
  unfold Machine.execAddAttribute
  rw [h.msg, h.attr]
  cases t.msg with
  | none => exact h.raises _
  | some m =>
    dsimp only
    split
    · exact h.raises _
    · cases t.attr with
      | none => exact h.raises _
      | some a => exact h.replaceMsg _

theorem SameValid.execSerialize (h : SameValid s t) : SameOutcome (execSerialize s) (execSerialize t) := by
  unfold Machine.execSerialize
  rw [h.msg]
  cases t.msg with
  | none => exact h.raises _
  | some m => exact (h.setMsg _).emit _

theorem SameValid.execEncodeAttribute (h : SameValid s t) :
    SameOutcome (execEncodeAttribute s) (execEncodeAttribute t) := by
  unfold Machine.execEncodeAttribute
  rw [h.attr]
  cases t.attr with
  | none => exact h.raises _
  | some a => exact h.emit _

theorem SameValid.execDecodeAttribute (h : SameValid s t) (off : BitVec 16) :
    SameOutcome (execDecodeAttribute off s) (execDecodeAttribute off t) := by
  refine h.withInput _ fun bytes => ?_
  cases decodeAttribute bytes with
  | error e => exact h.raises e
  | ok r => exact .next ((h.setAttr _).setConsumed _).ok

theorem SameValid.execLoadAttr (h : SameValid s t) (index : BitVec 14) :
    SameOutcome (execLoadAttr index s) (execLoadAttr index t) := by
  unfold Machine.execLoadAttr
  rw [h.msg]
  cases t.msg with
  | none => exact h.raises _
  | some m =>
    dsimp only
    cases m.attrs[index.toNat]? with
    | none => exact h.raises _
    | some a => exact .next (h.setAttr a).ok

theorem SameValid.execRead (h : SameValid s t) (field : BitVec 6) :
    SameOutcome (execRead field s) (execRead field t) := by
  unfold Machine.execRead
  cases selectorOf field with
  | none => exact h.raises _
  | some sel =>
    dsimp only
    rw [h.readField_eq]
    cases readField sel t with
    | error e => exact h.raises e
    | ok out => exact h.emit out

theorem SameValid.exec (h : SameValid s t) (i : Instr) : SameOutcome (exec i s) (exec i t) := by
  cases i with
  | construct method cls =>
    simp only [Machine.exec, execConstruct, h.ent]
    exact h.replaceMsg _
  | addAttribute => exact h.execAddAttribute
  | serialize => exact h.execSerialize
  | deserialize => exact h.withInput 0 fun _ => h.replaceMsg _
  | encodeAttribute => exact h.execEncodeAttribute
  | decodeAttribute off => exact h.execDecodeAttribute off
  | buildMappedAddress port => exact h.withInput 0 fun _ => h.stageBuilt _
  | buildRaw typeCode => exact h.withInput 0 fun _ => h.stageBuilt _
  | loadAttr index => exact h.execLoadAttr index
  | packType method cls =>
    unfold Machine.exec execPackType
    exact h.emit _
  | unpackType word =>
    unfold Machine.exec execUnpackType
    exact h.emit _
  | read field => exact h.execRead field

theorem SameValid.loadInput (h : SameValid s t) (bytes : Bytes) :
    SameOutcome (loadInput bytes s) (loadInput bytes t) := by
  unfold Machine.loadInput
  rw [h.ibufMax]
  split
  · exact .next (h.setInput bytes)
  · exact .refused _

theorem SameValid.step (h : SameValid s t) : SameOutcome (step s) (step t) := by
  unfold Machine.step
  rw [h.host]
  cases t.host with
  | nil => exact .next h
  | cons action rest =>
    cases action with
    | loadInput bytes => exact (h.setHost rest).loadInput bytes
    | assertReset => exact .next (h.setHost rest).assertReset
    | command w draw =>
      dsimp only
      cases fetch w with
      | none => exact (h.present draw rest).raises _
      | some i => exact (h.present draw rest).exec i

/-! ### The registers each command writes -/

/-- No command but BUILD_MAPPED_ADDRESS, BUILD_RAW, DECODE_ATTRIBUTE and LOAD_ATTR writes ATTR (R23). -/
theorem exec_attr_frame {i : Instr} (h : exec i s = .next t) (hi : writesAttr i = false) : t.attr = s.attr := by
  cases exec_effect h with
  | failed | replacedMsg | output | sealedOutput => rfl
  | staged a ha => exact absurd (hi.symm.trans ha) (by decide)
  | stagedCounted a k hk =>
    obtain ⟨off, rfl⟩ := hk
    cases hi

/-- No command but DECODE_ATTRIBUTE writes CONSUMED (R23). -/
theorem exec_consumed_frame {i : Instr} (h : exec i s = .next t) (hi : ∀ off, i ≠ .decodeAttribute off) :
    t.consumed = s.consumed := by
  cases exec_effect h with
  | failed | replacedMsg | staged | output | sealedOutput => rfl
  | stagedCounted a k hk =>
    obtain ⟨off, rfl⟩ := hk
    exact absurd rfl (hi off)

/-- No command but CONSTRUCT, DESERIALIZE, ADD_ATTRIBUTE and SERIALIZE writes MSG (R23). -/
theorem exec_msg_frame {i : Instr} (h : exec i s = .next t) (hc : ∀ method cls, i ≠ .construct method cls)
    (hd : i ≠ .deserialize) (ha : i ≠ .addAttribute) (hs : i ≠ .serialize) : t.msg = s.msg := by
  cases exec_effect h with
  | failed | staged | stagedCounted | output => rfl
  | replacedMsg m hm =>
    obtain ⟨method, cls, hi⟩ | hi | hi := hm
    · exact absurd hi (hc method cls)
    · exact absurd hi ha
    · exact absurd hi hd
  | sealedOutput m hi => exact absurd hi hs

/-! ### The lifecycle of a message -/

theorem deserialize_state {bytes : Bytes} {m : Message} (h : deserialize bytes = .ok m) : m.state = .decoded := by
  unfold deserialize at h
  split at h
  · dsimp only at h
    split at h <;> cases h
    rfl
  · cases h

/-- The length an append leaves, as a sum of the 16-bit fields (R155). -/
theorem ofNat_appendedLength (m : Message) (a : Attribute) :
    BitVec.ofNat 16 (appendedLength m a) = m.length + 4 + a.declaredLength := by
  simp [appendedLength, BitVec.ofNat_add]

/-- How the command may change the message `m` of the slot into `m'` (R24, R153). -/
def LifecycleStep (i : Instr) (s : State) (m m' : Message) : Prop :=
  m' = m ∨
    ((∃ method cls, i = .construct method cls) ∧ m'.state = .building ∧ m'.attrs = [] ∧ m'.length = 0) ∨
    (i = .deserialize ∧ m'.state = .decoded) ∨
    (i = .serialize ∧ m.state = .building ∧ m' = { m with state := .sealed }) ∨
    (i = .addAttribute ∧ m.state = .building ∧ ∃ a, s.attr = some a ∧
      m' = { m with attrs := m.attrs ++ [a], length := m.length + 4 + a.declaredLength })

theorem lifecycleStep_sealMessage (s : State) (m : Message) : LifecycleStep .serialize s m (sealMessage m) := by
  unfold sealMessage
  split
  · next hb => exact .inr (.inr (.inr (.inl ⟨rfl, hb, rfl⟩)))
  · exact .inl rfl

theorem exec_lifecycleStep {i : Instr} {m : Message} (h : exec i s = .next t) (hm : s.msg = some m) :
    ∃ m', t.msg = some m' ∧ LifecycleStep i s m m' := by
  cases i with
  | construct method cls =>
    obtain ⟨-, rfl⟩ | ⟨id, -, rfl⟩ := execConstruct_next h
    · exact ⟨m, hm, .inl rfl⟩
    · exact ⟨_, rfl, .inr (.inl ⟨⟨method, cls, rfl⟩, rfl, rfl, rfl⟩)⟩
  | addAttribute =>
    obtain ⟨-, rfl⟩ | ⟨m₀, hm₀, ⟨-, rfl⟩ | ⟨-, -, rfl⟩ | ⟨a, hb, ha, ⟨-, rfl⟩ | ⟨-, rfl⟩⟩⟩ := execAddAttribute_next h
    · exact ⟨m, hm, .inl rfl⟩
    · exact ⟨m, hm, .inl rfl⟩
    · exact ⟨m, hm, .inl rfl⟩
    · exact ⟨m, hm, .inl rfl⟩
    · obtain rfl : m = m₀ := Option.some.inj (hm.symm.trans hm₀)
      exact ⟨_, rfl, .inr (.inr (.inr (.inr ⟨rfl, hb, a, ha, by rw [ofNat_appendedLength]⟩)))⟩
  | serialize =>
    obtain ⟨-, rfl⟩ | ⟨m₀, hm₀, -, rfl⟩ := execSerialize_next h
    · exact ⟨m, hm, .inl rfl⟩
    · obtain rfl : m = m₀ := Option.some.inj (hm.symm.trans hm₀)
      exact ⟨_, rfl, lifecycleStep_sealMessage s m⟩
  | deserialize =>
    obtain ⟨bytes, -, ⟨e, -, rfl⟩ | ⟨m', hd, rfl⟩⟩ := execDeserialize_next h
    · exact ⟨m, hm, .inl rfl⟩
    · exact ⟨m', rfl, .inr (.inr (.inl ⟨rfl, deserialize_state hd⟩))⟩
  | encodeAttribute | decodeAttribute | buildMappedAddress | buildRaw | loadAttr | packType | unpackType | read =>
    exact ⟨m, (exec_msg_frame h nofun nofun nofun nofun).trans hm, .inl rfl⟩

/-! ### READ -/

theorem bytes16_zext {n : Nat} (h : n ≤ 16) (v : BitVec n) :
    bytes16 (zext 16 v) = [(v >>> 8).setWidth 8, v.setWidth 8] := by
  have hlt : v.toNat < 65536 := lt_of_lt_of_le v.isLt (Nat.pow_le_pow_right (by decide) h)
  rw [bytes16, List.cons_eq_cons, List.cons_eq_cons]
  refine ⟨BitVec.eq_of_toNat_eq ?_, BitVec.eq_of_toNat_eq ?_, rfl⟩
  · simp [zext, Nat.mod_eq_of_lt hlt]
  · simp [zext]

theorem bytes16_ofNat (n : Nat) : bytes16 (BitVec.ofNat 16 n) = [BitVec.ofNat 8 (n / 256), BitVec.ofNat 8 n] := by
  rw [bytes16, List.cons_eq_cons, List.cons_eq_cons]
  refine ⟨BitVec.eq_of_toNat_eq ?_, BitVec.eq_of_toNat_eq ?_, rfl⟩
  · simp [Nat.shiftRight_eq_div_pow]
    omega
  · simp

theorem readMsg_of_none {field : Message → Bytes} (h : s.msg = none) : readMsg s field = .error .noMessage := by
  simp only [readMsg, h]

theorem exec_read_error {field : BitVec 6} {sel : Selector} {e : ErrorKind} (hsel : selectorOf field = some sel)
    (h : readField sel s = .error e) : exec (.read field) s = .next (raise e s) := by
  simp only [exec, execRead, hsel, h]

/-- READ of a field that has a value and fits OBUF writes it, and nothing but OBUF, OLEN and STATUS changes (R231). -/
theorem exec_read_ok {field : BitVec 6} {sel : Selector} {out : Bytes} (hsel : selectorOf field = some sel)
    (h : readField sel s = .ok out) (hl : out.length ≤ 65555) :
    ∃ t, exec (.read field) s = .next t ∧ WritesOutput s t out ∧
      t = { s with obuf := t.obuf, olen := t.olen, status := 0 } := by
  simp only [exec, execRead, hsel, h, emit_of_le s hl]
  exact ⟨_, rfl, writesOutput_ok_setOutput s hl, rfl⟩

end StateFamily

/-! ### The obligations -/

/-- Settles O53: a load, a reset, an illegal word and each command keep it. -/
theorem stepKeepsTheInvariant : Obligations.StepKeepsTheInvariant := fun _ _ hi h => step_keeps_inv hi h

/-- Settles O55: a step takes states that differ in such bytes alone to the same kind of outcome. -/
theorem bytesWithoutValueNeverMatter : Obligations.BytesWithoutValueNeverMatter := by
  intro s t s' hst hs
  have hsame := hst.step
  rw [hs] at hsame
  obtain ⟨t', ht, h⟩ := hsame.next_left
  exact ⟨t', ht, h, h.observe_eq⟩

/-- Settles O35: READ ends with the field's bytes, or with the error of an empty slot. -/
theorem readGivesTheMessageFields : Obligations.ReadGivesTheMessageFields := by
  intro s
  refine ⟨?_, fun hm => ?_, fun m hm => ?_⟩
  · refine exec_read_ok (sel := .msgState) rfl ?_ (by simp)
    unfold readField State.msgStateCode
    cases s.msg with
    | none => rfl
    | some m => obtain ⟨⟨⟩, _⟩ := m <;> rfl
  · intro f hf
    simp only [List.mem_cons, List.not_mem_nil, or_false] at hf
    obtain rfl | rfl | rfl | rfl | rfl | rfl := hf <;>
      exact exec_read_error (e := .noMessage) rfl (readMsg_of_none hm)
  · simp only [List.forall_mem_cons, List.not_mem_nil, false_imp_iff, implies_true, and_true]
    refine ⟨?_, ?_, ?_, ?_, ?_, ?_⟩
    · exact exec_read_ok rfl (readMsg_ok_iff.2 ⟨m, hm, bytes16_zext (by decide) m.method⟩) (by simp)
    · exact exec_read_ok rfl (readMsg_ok_iff.2 ⟨m, hm, rfl⟩) (by simp)
    · exact exec_read_ok rfl (readMsg_ok_iff.2 ⟨m, hm, rfl⟩) (by simp)
    · exact exec_read_ok rfl (readMsg_ok_iff.2 ⟨m, hm, rfl⟩) (by simp)
    · exact exec_read_ok rfl (readMsg_ok_iff.2 ⟨m, hm, rfl⟩) (by simp)
    · exact exec_read_ok rfl (readMsg_ok_iff.2 ⟨m, hm, bytes16_ofNat _⟩) (by simp)

/-- Settles O42, by the frame of every command. -/
theorem commandsLeaveTheInputSide : Obligations.CommandsLeaveTheInputSide := by
  intro i s t h
  obtain ⟨hibuf, hframe⟩ := exec_input_frame h
  exact ⟨fun _ => hibuf ▸ rfl, hframe⟩

/-- Settles O45, by the frame of each register. -/
theorem registersChangeOnlyByTheirCommands : Obligations.RegistersChangeOnlyByTheirCommands :=
  fun _ _ _ h => ⟨exec_attr_frame h, exec_consumed_frame h, exec_msg_frame h⟩

/-- Settles O46, by what each of the four commands that write MSG makes of the message. -/
theorem messageChangesAsTheLifecycleSays : Obligations.MessageChangesAsTheLifecycleSays :=
  fun _ _ _ _ h hm => exec_lifecycleStep h hm

/-- Settles O47: the step is the load, and the written string is read back from every index. -/
theorem loadIsSeenByTheNextCommand : Obligations.LoadIsSeenByTheNextCommand := by
  intro s bytes rest hh hl
  refine ⟨(s.setHost rest).setInput bytes, ?_, readInput_setInput_from _ bytes, fun a ha => ?_, rfl⟩
  · rw [step_loadInput hh]
    exact if_pos hl
  · rw [State.setInput_ibuf, Memory.read_writeFromZero, if_neg (by omega), State.setHost_ibuf]

/-- Settles O6: `present` is the state the statement writes out. -/
theorem stepRunsTheDecodedInstruction : Obligations.StepRunsTheDecodedInstruction :=
  fun _ _ _ _ _ hh hw => step_command hh hw

/-- Settles O48: the load's guard fails. -/
theorem overlongLoadIsRefused : Obligations.OverlongLoadIsRefused := by
  intro s bytes rest hh hl
  rw [step_loadInput hh]
  exact if_neg (Nat.not_le_of_lt hl)

/-- Settles O50: each field is the one of the reset state, and an empty buffer holds no byte. -/
theorem resetStateHasTheListedValues : Obligations.ResetStateHasTheListedValues :=
  ⟨rfl, rfl, rfl, rfl, rfl, rfl, rfl, rfl, Memory.read_nil, Memory.read_nil⟩

/-- Settles O52: the reset state is what RST makes of it. -/
theorem invariantHoldsAtReset : Obligations.InvariantHoldsAtReset := inv_assertReset State.reset

end Sys2Proof
end

section
/-! Family 30_encoding. The encoder and the decoder undo each other and accept the rows of the opcode table (R103 to
R107, R112), the bits of the type word (R91), an unlisted selector (R108), a MappedAddress record (R94, R196) and the
written forms (R110, R111). In order: the fields of a word; the form of a command's words, which the decoder, the
encoder and the table are each compared with; then the other functions of the family. -/

namespace Sys2Proof

open Sys2Proof.Machine

section EncodingFamily

variable {w : CmdWord} {i : Instr}

/-! ### The fields of a word -/

/-- The bits of a shifted word inside its width, with the bound as `lo ≤ k`. -/
theorem getLsbD_shiftLeft_of_lt {n : Nat} (v : BitVec n) (lo : Nat) {k : Nat} (hk : k < n) :
    (v <<< lo).getLsbD k = (decide (lo ≤ k) && v.getLsbD (k - lo)) := by
  rw [BitVec.getLsbD_shiftLeft, decide_eq_true hk, Bool.true_and, ← decide_not]
  simp only [Nat.not_lt]

theorem getLsbD_place {n : Nat} (lo : Nat) (v : BitVec n) (k : Nat) :
    (place lo v).getLsbD k = (decide (k < 32) && decide (lo ≤ k) && v.getLsbD (k - lo)) := by
  by_cases hk : k < 32
  · rw [place, getLsbD_shiftLeft_of_lt _ _ hk, BitVec.getLsbD_setWidth]
    simp [hk, show k - lo < 32 by omega]
  · rw [BitVec.getLsbD_of_ge _ _ (by omega)]
    simp [hk]

/-- Nothing of a word stands at bit `lo` or above. -/
theorem shiftRight_eq_zero_iff {lo : Nat} : w >>> lo = 0 ↔ ∀ k, lo ≤ k → w.getLsbD k = false := by
  constructor
  · intro h k hk
    simpa [Nat.add_sub_cancel' hk] using congrArg (·.getLsbD (k - lo)) h
  · intro h
    apply BitVec.eq_of_getLsbD_eq
    intro k _
    simp [h]

/-- A field read at its operand's place is the operand, if the rest of the word stands below it. -/
theorem extract_place_or {n lo : Nat} (v : BitVec n) (hn : lo + n ≤ 32) (hw : w >>> lo = 0) :
    (place lo v ||| w).extractLsb' lo n = v := by
  apply BitVec.eq_of_getLsbD_eq
  intro k hk
  have hwk : w.getLsbD (lo + k) = false := shiftRight_eq_zero_iff.1 hw _ (by omega)
  rw [BitVec.getLsbD_extractLsb', BitVec.getLsbD_or, getLsbD_place, hwk]
  simp [hk, show lo + k < 32 by omega]

/-- A field that ends below the operand's place does not see the operand. -/
theorem extract_place_or_below {n lo a k : Nat} (v : BitVec n) (w : CmdWord) (h : a + k ≤ lo) :
    (place lo v ||| w).extractLsb' a k = w.extractLsb' a k := by
  apply BitVec.eq_of_getLsbD_eq
  intro j hj
  have hlo : ¬ lo ≤ a + j := by omega
  simp [getLsbD_place, hj, hlo]

/-- An operand leaves the bits above its own field as they are. -/
theorem place_or_shiftRight {n lo hi : Nat} (v : BitVec n) (hv : lo + n ≤ hi) (hw : w >>> hi = 0) :
    (place lo v ||| w) >>> hi = 0 := by
  rw [shiftRight_eq_zero_iff] at hw ⊢
  intro k hk
  have hvk : v.getLsbD (k - lo) = false := BitVec.getLsbD_of_ge _ _ (by omega)
  simp [getLsbD_place, hw k hk, hvk]

/-- A field put back above the bits below it gives all bits up to its end. -/
theorem place_extract_or (w : CmdWord) (lo n : Nat) :
    place lo (w.extractLsb' lo n) ||| place 0 (w.extractLsb' 0 lo) = place 0 (w.extractLsb' 0 (lo + n)) := by
  apply BitVec.eq_of_getLsbD_eq
  intro k _
  rw [BitVec.getLsbD_or, getLsbD_place, getLsbD_place, getLsbD_place]
  by_cases h : lo ≤ k
  · simp [h, show k - lo < n ↔ k < lo + n by omega]
  · simp [h, show k < lo by omega, show k < lo + n by omega]

/-- Where all bits from `lo` up are 0, the bits below are the word. -/
theorem place_extract_of_shiftRight {lo : Nat} (h : w >>> lo = 0) : place 0 (w.extractLsb' 0 lo) = w := by
  apply BitVec.eq_of_getLsbD_eq
  intro k hk
  rw [getLsbD_place, BitVec.getLsbD_extractLsb']
  by_cases hlo : k < lo
  · simp [hk, hlo]
  · simp [hlo, shiftRight_eq_zero_iff.1 h k (by omega)]

/-! ### The form of an instruction's word -/

/-- The lowest reserved bit of an instruction's word: all bits from it up are 0 (R105, R106). -/
def reservedFrom (i : Instr) : Nat :=
  match i with
  | .construct _ _ | .loadAttr _ | .packType _ _ => 22
  | .decodeAttribute _ | .buildMappedAddress _ | .buildRaw _ | .unpackType _ => 24
  | .read _ => 14
  | .addAttribute | .serialize | .deserialize | .encodeAttribute => 8

/-- The word has the form of the instruction's command: its opcode, and 0 in every reserved bit. -/
def HasFormOf (w : CmdWord) (i : Instr) : Prop := opcodeField w = opcodeOf i ∧ w >>> reservedFrom i = 0

/-- The instruction of the same command whose operands are the fields of the word (R105). -/
def readOperands (w : CmdWord) (i : Instr) : Instr :=
  match i with
  | .construct _ _ => .construct (methodField w) (classField w)
  | .packType _ _ => .packType (methodField w) (classField w)
  | .decodeAttribute _ => .decodeAttribute (half16Field w)
  | .buildMappedAddress _ => .buildMappedAddress (half16Field w)
  | .buildRaw _ => .buildRaw (half16Field w)
  | .unpackType _ => .unpackType (half16Field w)
  | .loadAttr _ => .loadAttr (indexField w)
  | .read _ => .read (selectorField w)
  | .addAttribute => .addAttribute
  | .serialize => .serialize
  | .deserialize => .deserialize
  | .encodeAttribute => .encodeAttribute

/-! ### The decoder -/

theorem checkReserved_ok_iff {lo : Nat} {j : Instr} : checkReserved lo w i = .ok j ↔ w >>> lo = 0 ∧ i = j := by
  unfold checkReserved
  split
  · rename_i hres
    exact ⟨fun h => ⟨hres, Except.ok.inj h⟩, fun h => congrArg _ h.2⟩
  · rename_i hres
    exact ⟨nofun, fun h => absurd h.1 hres⟩

/-- The decoder reads the operands of every word that has a command's form. -/
theorem decode_of_hasFormOf (h : HasFormOf w i) : decode w = .ok (readOperands w i) := by
  obtain ⟨hop, hres⟩ := h
  rw [decode, hop]
  cases i <;> exact if_pos hres

/-- The decoder accepts a word only as the command it has the form of, with the word's operands. -/
theorem decode_ok (h : decode w = .ok i) : HasFormOf w i ∧ readOperands w i = i := by
  unfold decode at h
  split at h
  case h_13 => cases h
  all_goals
    rename_i hop
    obtain ⟨hres, rfl⟩ := checkReserved_ok_iff.1 h
    exact ⟨⟨hop, hres⟩, rfl⟩

/-! ### The encoder -/

theorem opcodeField_encode (i : Instr) : opcodeField (encode i) = opcodeOf i := by
  cases i with
  | construct method cls => exact Laws.OpcodeByte.construct method cls
  | addAttribute => exact Laws.OpcodeByte.addAttribute
  | serialize => exact Laws.OpcodeByte.serialize
  | deserialize => exact Laws.OpcodeByte.deserialize
  | encodeAttribute => exact Laws.OpcodeByte.encodeAttribute
  | decodeAttribute off => exact Laws.OpcodeByte.decodeAttribute off
  | buildMappedAddress port => exact Laws.OpcodeByte.buildMappedAddress port
  | buildRaw typeCode => exact Laws.OpcodeByte.buildRaw typeCode
  | loadAttr index => exact Laws.OpcodeByte.loadAttr index
  | packType method cls => exact Laws.OpcodeByte.packType method cls
  | unpackType word => exact Laws.OpcodeByte.unpackType word
  | read field => exact Laws.OpcodeByte.read field

theorem encode_shiftRight (i : Instr) : encode i >>> reservedFrom i = 0 := by
  cases i with
  | addAttribute | serialize | deserialize | encodeAttribute => rfl
  | construct method cls | packType method cls =>
    rw [encode, BitVec.or_assoc, reservedFrom]
    exact place_or_shiftRight cls (by decide) (place_or_shiftRight method (by decide) rfl)
  | decodeAttribute v | buildMappedAddress v | buildRaw v | loadAttr v | unpackType v | read v =>
    exact place_or_shiftRight v (Nat.le_refl _) rfl

theorem encode_hasFormOf (i : Instr) : HasFormOf (encode i) i := ⟨opcodeField_encode i, encode_shiftRight i⟩

/-- Every operand is read back from its place in the word. -/
theorem readOperands_encode (i : Instr) : readOperands (encode i) i = i := by
  cases i with
  | addAttribute | serialize | deserialize | encodeAttribute => rfl
  | construct method cls | packType method cls =>
    rw [encode, BitVec.or_assoc, readOperands, methodField, classField,
      extract_place_or_below cls _ (by decide), extract_place_or method (by decide) rfl,
      extract_place_or cls (by decide) (place_or_shiftRight method (by decide) rfl)]
  | decodeAttribute v | buildMappedAddress v | buildRaw v | loadAttr v | unpackType v | read v =>
    exact congrArg _ (extract_place_or v (by decide) rfl)

/-- A word that has a command's form is the opcode with the operands it reads as, at their places. -/
theorem encode_readOperands (h : HasFormOf w i) : encode (readOperands w i) = w := by
  obtain ⟨hop, hres⟩ := h
  have hfirst (n : Nat) : place 8 (w.extractLsb' 8 n) ||| place 0 (opcodeOf i) = place 0 (w.extractLsb' 0 (8 + n)) :=
    hop ▸ place_extract_or w 8 n
  cases i with
  | addAttribute | serialize | deserialize | encodeAttribute =>
    exact (congrArg (place 0) hop.symm).trans (place_extract_of_shiftRight hres)
  | construct method cls | packType method cls =>
    rw [readOperands, encode, BitVec.or_assoc]
    refine (congrArg (place 20 (classField w) ||| ·) (hfirst 12)).trans ?_
    exact (place_extract_or w 20 2).trans (place_extract_of_shiftRight hres)
  | decodeAttribute v | buildMappedAddress v | buildRaw v | loadAttr v | unpackType v | read v =>
    exact (hfirst _).trans (place_extract_of_shiftRight hres)

theorem decode_encode (i : Instr) : decode (encode i) = .ok i := by
  rw [decode_of_hasFormOf (encode_hasFormOf i), readOperands_encode]

/-! ### The rows of the table -/

/-- The (mask, match) row of the instruction's command: the mask covers the opcode and the reserved bits. -/
def rowOf (i : Instr) : CmdWord × CmdWord :=
  (BitVec.allOnes 32 <<< reservedFrom i ||| (BitVec.allOnes 8).setWidth 32, (opcodeOf i).setWidth 32)

theorem rowOf_readOperands (w : CmdWord) (i : Instr) : rowOf (readOperands w i) = rowOf i := by
  cases i <;> rfl

/-- The table holds the row of every command and no other. -/
theorem mem_opcodeRows_iff {row : CmdWord × CmdWord} : row ∈ opcodeRows ↔ ∃ i, rowOf i = row := by
  constructor
  · revert row
    simp only [opcodeRows, List.forall_mem_cons]
    exact ⟨⟨.construct 0 0, rfl⟩, ⟨.addAttribute, rfl⟩, ⟨.serialize, rfl⟩, ⟨.deserialize, rfl⟩,
      ⟨.encodeAttribute, rfl⟩, ⟨.decodeAttribute 0, rfl⟩, ⟨.buildMappedAddress 0, rfl⟩, ⟨.buildRaw 0, rfl⟩,
      ⟨.loadAttr 0, rfl⟩, ⟨.packType 0 0, rfl⟩, ⟨.unpackType 0, rfl⟩, ⟨.read 0, rfl⟩,
      fun _ h => absurd h List.not_mem_nil⟩
  · rintro ⟨i, rfl⟩
    rw [← rowOf_readOperands 0 i]
    cases i <;> rw [readOperands] <;> decide

theorem getLsbD_rowOf_mask (i : Instr) (k : Nat) :
    (rowOf i).1.getLsbD k = (decide (k < 32) && (decide (reservedFrom i ≤ k) || decide (k < 8))) := by
  by_cases hk : k < 32
  · rw [rowOf, BitVec.getLsbD_or, getLsbD_shiftLeft_of_lt _ _ hk, BitVec.getLsbD_setWidth, BitVec.getLsbD_allOnes,
      BitVec.getLsbD_allOnes]
    simp [hk, show k - reservedFrom i < 32 by omega]
  · rw [BitVec.getLsbD_of_ge _ _ (by omega)]
    simp [hk]

theorem eight_le_reservedFrom (i : Instr) : 8 ≤ reservedFrom i := by
  cases i <;> simp [reservedFrom]

theorem opcodeField_eq_iff {op : BitVec 8} : opcodeField w = op ↔ ∀ k, k < 8 → w.getLsbD k = op.getLsbD k := by
  constructor
  · rintro rfl k hk
    simp [opcodeField, hk]
  · intro h
    apply BitVec.eq_of_getLsbD_eq
    intro k hk
    simpa [opcodeField, hk] using h k hk

/-- To match a row is to have the form of the row's command. -/
theorem matches_rowOf_iff : w &&& (rowOf i).1 = (rowOf i).2 ↔ HasFormOf w i := by
  have hlo := eight_le_reservedFrom i
  have hmatch (k : Nat) : (rowOf i).2.getLsbD k = (decide (k < 32) && (opcodeOf i).getLsbD k) :=
    BitVec.getLsbD_setWidth ..
  rw [HasFormOf, shiftRight_eq_zero_iff, opcodeField_eq_iff]
  constructor
  · intro h
    have hbit (k : Nat) := congrArg (·.getLsbD k) h
    simp only [BitVec.getLsbD_and, getLsbD_rowOf_mask, hmatch] at hbit
    refine ⟨fun k hk => ?_, fun k hk => ?_⟩
    · simpa [hk, show k < 32 by omega] using hbit k
    · by_cases h32 : k < 32
      · simpa [hk, h32, BitVec.getLsbD_of_ge (opcodeOf i) k (by omega)] using hbit k
      · exact BitVec.getLsbD_of_ge _ _ (by omega)
  · rintro ⟨hop, hres⟩
    apply BitVec.eq_of_getLsbD_eq
    intro k hk
    rw [BitVec.getLsbD_and, getLsbD_rowOf_mask, hmatch]
    by_cases h8 : k < 8
    · rw [hop k h8]
      simp [hk, h8]
    · have hopk : (opcodeOf i).getLsbD k = false := BitVec.getLsbD_of_ge _ _ (by omega)
      by_cases hr : reservedFrom i ≤ k
      · simp [hres k hr, hopk]
      · simp [h8, hr, hopk]

/-! ### The type word, a selector, and a MappedAddress record -/

/-- Every bit of a packed type word (R91). -/
theorem getLsbD_packType (m : BitVec 12) (c : BitVec 2) {k : Nat} (hk : k < 16) :
    (packType m c).getLsbD k =
      if k < 4 then m.getLsbD k else if k = 4 then c.getLsbD 0 else if k < 8 then m.getLsbD (k - 1)
      else if k = 8 then c.getLsbD 1 else if k < 14 then m.getLsbD (k - 2) else false := by
  interval_cases k <;> simp [packType, zext]

theorem selectorOf_eq_none_iff : ∀ f : BitVec 6, selectorOf f = none ↔ f ∉ knownSelectors := by decide

/-- A record at the front of a byte string, whatever follows it (R194, R198). -/
theorem decodeAttribute_record {typeCode dl : BitVec 16} {value : Bytes} {a : Attribute} (tail : Bytes)
    (hl : value.length = dl.toNat) (h : decodeRecord typeCode dl value = .ok a) :
    decodeAttribute (bytes16 typeCode ++ bytes16 dl ++ value ++ tail) = .ok (a, 4 + dl.toNat) := by
  have htake : (value ++ tail).take dl.toNat = value := by rw [← hl, List.take_left]
  simp [bytes16, decodeAttribute, htake, h, hl]

/-- DECODE_ATTRIBUTE on bytes that decode writes the record, the count and STATUS, and nothing else (R199). -/
theorem exec_decodeAttribute_ok {s : State} {off : BitVec 16} {bytes : Bytes} {a : Attribute} {k : Nat}
    (hb : readInput s off.toNat = some bytes) (h : decodeAttribute bytes = .ok (a, k)) :
    exec (.decodeAttribute off) s = .next (ok ((s.setAttr a).setConsumed (BitVec.ofNat 17 k))) := by
  simp only [exec, execDecodeAttribute, withInput_of_some hb, h]

/-- The two layouts of R94, with any reserved byte (R196). -/
theorem decodeMappedAddress_layout {reserved family p1 p0 : Byte} {addr : Bytes} {dl : BitVec 16}
    (h : (family = 0x01 ∧ addr.length = 4 ∧ dl = 8) ∨ (family = 0x02 ∧ addr.length = 16 ∧ dl = 20)) :
    decodeMappedAddress dl (reserved :: family :: p1 :: p0 :: addr) =
      .ok ⟨mappedAddressType, dl, .mappedAddress family (be16 p1 p0) addr⟩ := by
  obtain ⟨rfl, hl, rfl⟩ | ⟨rfl, hl, rfl⟩ := h <;>
    simp [decodeMappedAddress, familyLength, List.take_of_length_le, hl]

end EncodingFamily

/-! ### The obligations -/

/-- Settles O1: an instruction's word has its command's form, and its fields are the operands. -/
theorem decodeOfEncodeIsTheInstruction : Obligations.DecodeOfEncodeIsTheInstruction := decode_encode

/-- Settles O2: the word is put together again from its opcode and its fields. -/
theorem encodeOfDecodeIsTheWord : Obligations.EncodeOfDecodeIsTheWord := by
  intro w i h
  obtain ⟨hform, hi⟩ := decode_ok h
  rw [← hi]
  exact encode_readOperands hform

/-- Settles O3: to match a row is to have the form of its command, and the decoder, which accepts just these words,
answers one instruction only. -/
theorem decodeAcceptsExactlyTheTableRows : Obligations.DecodeAcceptsExactlyTheTableRows := by
  intro w
  refine ⟨⟨fun ⟨i, hi⟩ => ?_, fun ⟨row, hrow, hw⟩ => ?_⟩, fun row hrow row' hrow' hw hw' => ?_⟩
  · exact ⟨rowOf i, mem_opcodeRows_iff.2 ⟨i, rfl⟩, matches_rowOf_iff.2 (decode_ok hi).1⟩
  · obtain ⟨i, rfl⟩ := mem_opcodeRows_iff.1 hrow
    exact ⟨_, decode_of_hasFormOf (matches_rowOf_iff.1 hw)⟩
  · obtain ⟨i, rfl⟩ := mem_opcodeRows_iff.1 hrow
    obtain ⟨j, rfl⟩ := mem_opcodeRows_iff.1 hrow'
    have hi := decode_of_hasFormOf (matches_rowOf_iff.1 hw)
    have hj := decode_of_hasFormOf (matches_rowOf_iff.1 hw')
    have hij : readOperands w i = readOperands w j := Except.ok.inj (hi.symm.trans hj)
    rw [← rowOf_readOperands w i, hij, rowOf_readOperands]

/-- Settles O29: the record's value is one of the two layouts, and the bytes after it do not matter. -/
theorem decodeAttributeReadsAMappedAddress : Obligations.DecodeAttributeReadsAMappedAddress := by
  intro s off reserved family p1 p0 addr tail dl h hb
  have hl : (reserved :: family :: p1 :: p0 :: addr).length = dl.toNat := by
    obtain ⟨-, hl, rfl⟩ | ⟨-, hl, rfl⟩ := h <;> simp [hl]
  have hrec := decodeAttribute_record (typeCode := mappedAddressType) tail hl
    (decodeMappedAddress_layout (reserved := reserved) h)
  have hk : BitVec.ofNat 17 (4 + dl.toNat) = 4 + dl.setWidth 17 := by
    obtain ⟨-, -, rfl⟩ | ⟨-, -, rfl⟩ := h <;> rfl
  rw [exec_decodeAttribute_ok hb hrec, hk]
  rfl

/-- Settles O4: each word is the encoding of its command. -/
theorem writtenOutWordsDecode : Obligations.WrittenOutWordsDecode :=
  ⟨decode_encode (.construct 0x001 2), decode_encode .addAttribute, decode_encode .serialize,
    decode_encode .deserialize, decode_encode .encodeAttribute, decode_encode (.decodeAttribute 7),
    decode_encode (.buildMappedAddress 54321), decode_encode (.buildRaw 0x8022), decode_encode (.loadAttr 16382),
    decode_encode (.packType 0xFFF 3), decode_encode (.unpackType 0xC001), decode_encode (.read 0x14)⟩

/-- Settles O7, bit range by bit range. -/
theorem typeWordBitLayout : Obligations.TypeWordBitLayout := by
  intro m c
  refine ⟨fun i h => ?_, ?_, fun i h h' => ?_, ?_, fun i h h' => ?_, ?_, ?_⟩
  · rw [getLsbD_packType m c (by omega), if_pos h]
  · exact getLsbD_packType m c (by decide)
  · rw [getLsbD_packType m c (by omega), if_neg (by omega), if_neg (by omega), if_pos (by omega)]
  · exact getLsbD_packType m c (by decide)
  · rw [getLsbD_packType m c (by omega), if_neg (by omega), if_neg (by omega), if_neg (by omega), if_neg (by omega),
      if_pos (by omega)]
  · exact getLsbD_packType m c (by decide)
  · exact getLsbD_packType m c (by decide)

/-- Settles O38: READ finds no selector. -/
theorem readRefusesAnUnlistedSelector : Obligations.ReadRefusesAnUnlistedSelector := by
  intro s f hf
  simp only [exec, execRead, (selectorOf_eq_none_iff f).2 hf]
  rfl

/-- Settles O56: the texts are fixed, and the assembler is run on each. -/
theorem assemblerReadsTheWrittenForms : Obligations.AssemblerReadsTheWrittenForms :=
  ⟨by decide, by decide, by decide, by decide, by decide⟩

end Sys2Proof
end

section
/-! Family 40_type_word. Packing and unpacking each carry a bit of one side to a bit of the other (R91, R134), so that
they undo each other (R135, R136); the two byte formulas (R131, R132); the two commands (R137, R138). -/

namespace Sys2Proof

open Sys2Proof.Machine

section TypeWordFamily

/-! ### The bits of an unpacked word -/

/-- Each bit of the method is one bit of the word (R134). -/
theorem getLsbD_unpackMethod (w : BitVec 16) {k : Nat} (hk : k < 12) :
    (unpackMethod w).getLsbD k = w.getLsbD (if k < 4 then k else if k < 7 then k + 1 else k + 2) := by
  interval_cases k <;> simp [unpackMethod]

/-- Each bit of the class is one bit of the word (R134). -/
theorem getLsbD_unpackClass (w : BitVec 16) {k : Nat} (hk : k < 2) :
    (unpackClass w).getLsbD k = w.getLsbD (if k = 0 then 4 else 8) := by
  interval_cases k <;> simp [unpackClass]

/-! ### Packing and unpacking undo each other -/

theorem unpackMethod_packType (m : BitVec 12) (c : BitVec 2) : unpackMethod (packType m c) = m := by
  apply BitVec.eq_of_getLsbD_eq
  intro k hk
  rw [getLsbD_unpackMethod _ hk, getLsbD_packType m c (by split_ifs <;> omega)]
  by_cases h4 : k < 4
  · simp only [h4, if_true]
  by_cases h7 : k < 7
  · rw [if_neg h4, if_pos h7, if_neg (by omega), if_neg (by omega), if_pos (by omega), Nat.add_sub_cancel]
  · rw [if_neg h4, if_neg h7, if_neg (by omega), if_neg (by omega), if_neg (by omega), if_neg (by omega),
      if_pos (by omega), Nat.add_sub_cancel]

theorem unpackClass_packType (m : BitVec 12) (c : BitVec 2) : unpackClass (packType m c) = c := by
  apply BitVec.eq_of_getLsbD_eq
  intro k hk
  rw [getLsbD_unpackClass _ hk]
  obtain rfl | rfl : k = 0 ∨ k = 1 := by omega
  · exact getLsbD_packType m c (by decide)
  · exact getLsbD_packType m c (by decide)

/-- Packing an unpacked word puts each bit below 14 back in its place (R136). -/
theorem getLsbD_packType_unpack (w : BitVec 16) {k : Nat} (hk : k < 16) :
    (packType (unpackMethod w) (unpackClass w)).getLsbD k = (decide (k < 14) && w.getLsbD k) := by
  rw [getLsbD_packType _ _ hk]
  split_ifs with h4 hc0 h8 hc1 h14
  · rw [getLsbD_unpackMethod w (by omega), if_pos h4, decide_eq_true (by omega), Bool.true_and]
  · rw [hc0]
    exact getLsbD_unpackClass w (by decide)
  · rw [getLsbD_unpackMethod w (by omega), if_neg (by omega), if_pos (by omega), Nat.sub_add_cancel (by omega),
      decide_eq_true (by omega), Bool.true_and]
  · rw [hc1]
    exact getLsbD_unpackClass w (by decide)
  · rw [getLsbD_unpackMethod w (by omega), if_neg (by omega), if_neg (by omega), Nat.sub_add_cancel (by omega),
      decide_eq_true h14, Bool.true_and]
  · rw [decide_eq_false h14, Bool.false_and]

theorem packType_unpack (w : BitVec 16) : packType (unpackMethod w) (unpackClass w) = w &&& 0x3FFF := by
  have hmask : (0x3FFF : BitVec 16) = (BitVec.allOnes 14).setWidth 16 := rfl
  apply BitVec.eq_of_getLsbD_eq
  intro k hk
  rw [getLsbD_packType_unpack w hk, BitVec.getLsbD_and, hmask, BitVec.getLsbD_setWidth, BitVec.getLsbD_allOnes,
    decide_eq_true hk, Bool.true_and, Bool.and_comm]

/-- A word comes back from unpacking and packing when it has no bit above 13 (R136). -/
theorem packType_unpack_eq_self_iff (w : BitVec 16) :
    packType (unpackMethod w) (unpackClass w) = w ↔ w.getLsbD 15 = false ∧ w.getLsbD 14 = false := by
  constructor
  · intro h
    have h15 := getLsbD_packType_unpack w (k := 15) (by decide)
    have h14 := getLsbD_packType_unpack w (k := 14) (by decide)
    rw [h] at h15 h14
    exact ⟨h15, h14⟩
  · rintro ⟨h15, h14⟩
    apply BitVec.eq_of_getLsbD_eq
    intro k hk
    rw [getLsbD_packType_unpack w hk]
    obtain hlow | rfl | rfl : k < 14 ∨ k = 14 ∨ k = 15 := by omega
    · rw [decide_eq_true hlow, Bool.true_and]
    · exact h14.symm
    · exact h15.symm

/-! ### Commands that do no more than write an output -/

/-- An output that fits is written, and nothing but OBUF, OLEN and STATUS changes (R18). -/
theorem emit_writesOutput {out : Bytes} (s : State) (h : out.length ≤ 65555) :
    ∃ t, emit out s = .next t ∧ WritesOutput s t out ∧
      t = { s with obuf := t.obuf, olen := BitVec.ofNat 17 out.length, status := 0 } :=
  ⟨_, emit_of_le s h, writesOutput_ok_setOutput s h, rfl⟩

end TypeWordFamily

/-! ### The obligations -/

/-- Settles O9: both parts come back, and so equal words have equal parts. -/
theorem unpackOfPackIsThePair : Obligations.UnpackOfPackIsThePair := by
  refine ⟨fun m c => ⟨unpackMethod_packType m c, unpackClass_packType m c⟩, fun m m' c c' h => ⟨?_, ?_⟩⟩
  · rw [← unpackMethod_packType m c, h, unpackMethod_packType]
  · rw [← unpackClass_packType m c, h, unpackClass_packType]

/-- Settles O10: the bits that come back are those below 14. -/
theorem packOfUnpackClearsTheTopBits : Obligations.PackOfUnpackClearsTheTopBits :=
  fun w => ⟨packType_unpack w, packType_unpack_eq_self_iff w⟩

/-- Settles O8: bit by bit, against the layout of the word (R91). -/
theorem typeWordByteFormulas : Obligations.TypeWordByteFormulas := by
  intro m c
  refine ⟨BitVec.eq_of_getLsbD_eq fun k hk => ?_, BitVec.eq_of_getLsbD_eq fun k hk => ?_⟩
  · rw [BitVec.getLsbD_extractLsb', getLsbD_packType m c (by omega)]
    interval_cases k <;> simp
  · rw [BitVec.getLsbD_extractLsb', getLsbD_packType m c (by omega)]
    interval_cases k <;> simp

/-- Settles O11: the output is the word's two bytes. -/
theorem packTypeWritesTheTypeWord : Obligations.PackTypeWritesTheTypeWord :=
  fun m c s => emit_writesOutput (out := bytes16 (packType m c)) s (by simp)

/-- Settles O12: the output is the method's two bytes and the class. -/
theorem unpackTypeWritesMethodAndClass : Obligations.UnpackTypeWritesMethodAndClass := by
  intro w s
  have h := emit_writesOutput (out := bytes16 (zext 16 (unpackMethod w)) ++ [zext 8 (unpackClass w)]) s (by simp)
  rwa [bytes16_zext (by decide)] at h

end Sys2Proof
end

section
/-! Family 41_message_codec. CONSTRUCT, ADD_ATTRIBUTE, SERIALIZE and DESERIALIZE (R150 to R167). In order: how each
command ends, from the state it starts in; one pass of DESERIALIZE's loop; the decoder against the
index-based pseudocode; and the bytes of a decoded message, which are those it came from but for what R167 clears. -/

namespace Sys2Proof

open Sys2Proof.Machine

section MessageFamily

variable {s : State}

/-! ### How the four commands end -/

theorem step_command_illegal {w : CmdWord} {draw : Option Txid} {rest : List HostAction} {e : DecodeError}
    (h : s.host = .command w draw :: rest) (hw : decode w = .error e) :
    step s = .next (raise .illegalCommand (present draw rest s)) := by
  simp only [step, h, fetch, hw, rejectWord]

/-- The bits from `lo` up, as a field of the word, are 0 when nothing stands at `lo` or above. -/
theorem extract_top_eq_zero_iff {w : CmdWord} {lo n : Nat} (hn : lo + n = 32) :
    w.extractLsb' lo n = 0 ↔ w >>> lo = 0 := by
  rw [shiftRight_eq_zero_iff]
  constructor
  · intro h k hk
    by_cases h32 : k < 32
    · simpa [show k - lo < n by omega, Nat.add_sub_cancel' hk] using congrArg (·.getLsbD (k - lo)) h
    · exact BitVec.getLsbD_of_ge _ _ (by omega)
  · intro h
    apply BitVec.eq_of_getLsbD_eq
    intro k _
    simp [h]

/-- CONSTRUCT with an ENT answer fills the slot (R150). -/
theorem exec_construct_of_some {method : BitVec 12} {cls : BitVec 2} {id : Txid} (h : s.ent = some id) :
    exec (.construct method cls) s = .next (ok (s.setMsg ⟨.building, method, cls, 0, magicCookie, id, []⟩)) := by
  simp only [exec, execConstruct, construct, h, replaceMsg]

theorem exec_construct_of_none {method : BitVec 12} {cls : BitVec 2} (h : s.ent = none) :
    exec (.construct method cls) s = .next (raise .randomness s) := by
  simp only [exec, execConstruct, construct, h, replaceMsg]

theorem exec_addAttribute_of_none (h : s.msg = none) : exec .addAttribute s = .next (raise .noMessage s) := by
  simp only [exec, execAddAttribute, h]

theorem exec_addAttribute_of_not_building {m : Message} (hm : s.msg = some m) (hb : m.state ≠ .building) :
    exec .addAttribute s = .next (raise .notMutable s) := by
  simp only [exec, execAddAttribute, hm, if_pos hb]

theorem exec_addAttribute_of_attr_none {m : Message} (hm : s.msg = some m) (hb : m.state = .building)
    (ha : s.attr = none) : exec .addAttribute s = .next (raise .noAttribute s) := by
  simp only [exec, execAddAttribute, hm, ha, if_neg (not_not.2 hb)]

/-- ADD_ATTRIBUTE on a BUILDING message with ATTR valid leaves the sum to decide (R157). -/
theorem exec_addAttribute_of_building {m : Message} {a : Attribute} (hm : s.msg = some m) (hb : m.state = .building)
    (ha : s.attr = some a) : exec .addAttribute s = .next (replaceMsg (addAttribute m a) s) := by
  simp only [exec, execAddAttribute, hm, ha, if_neg (not_not.2 hb)]

theorem addAttribute_of_le {m : Message} {a : Attribute} (h : appendedLength m a ≤ 65535) :
    addAttribute m a = .ok { m with attrs := m.attrs ++ [a], length := BitVec.ofNat 16 (appendedLength m a) } :=
  if_neg (Nat.not_lt_of_le h)

theorem addAttribute_of_lt {m : Message} {a : Attribute} (h : 65535 < appendedLength m a) :
    addAttribute m a = .error .lengthOverflow := if_pos h

theorem exec_serialize_of_le {m : Message} (hm : s.msg = some m) (hl : (serialize m).length ≤ 65555) :
    exec .serialize s = .next (ok ((s.setMsg (sealMessage m)).setOutput (serialize m))) := by
  simp only [exec, execSerialize, hm, emit_of_le _ hl]

theorem exec_deserialize {b : Bytes} (h : readInput s 0 = some b) :
    exec .deserialize s = .next (replaceMsg (deserialize b) s) := withInput_of_some h

/-! ### The output of a message -/

theorem sealMessage_eq (m : Message) :
    sealMessage m = { m with state := if m.state = .building then .sealed else m.state } := by
  unfold sealMessage
  split <;> rfl

/-- Sealing does not show in the output (R158, R160). -/
theorem serialize_sealMessage (m : Message) : serialize (sealMessage m) = serialize m := by
  rw [sealMessage_eq]
  rfl

theorem sealMessage_sealMessage (m : Message) : sealMessage (sealMessage m) = sealMessage m := by
  refine if_neg ?_
  rw [sealMessage_eq]
  dsimp only
  split
  · decide
  · assumption

theorem serialize_length {m : Message} (hm : MsgWf m) : (serialize m).length = 20 + m.length.toNat := by
  simp only [serialize, List.length_append, bytes16_length, Vector.length_toList,
    flatMap_encodeAttribute_length hm.attrs, hm.length]

/-! ### One pass of DESERIALIZE's loop -/

/-- A pass with 4 bytes or more of input: the record must lie inside the body and the input (R163). -/
theorem deserializeAttrs_cons (passes : Nat) (t1 t0 l1 l0 : Byte) (tail : Bytes) {left : Nat}
    (attrs : List Attribute) (h : left ≠ 0) :
    deserializeAttrs (passes + 1) (t1 :: t0 :: l1 :: l0 :: tail) left attrs =
      if min (tail.length + 4) left < 4 + (be16 l1 l0).toNat then .error .truncatedAttribute
      else
        (decodeRecord (be16 t1 t0) (be16 l1 l0) (tail.take (be16 l1 l0).toNat)).bind fun a =>
          deserializeAttrs passes (tail.drop (be16 l1 l0).toNat) (left - (4 + (be16 l1 l0).toNat)) (attrs ++ [a]) := by
  rw [deserializeAttrs_succ _ _ _ _ h]
  by_cases h4 : min (tail.length + 4) left < 4
  · exact (if_pos h4).trans (if_pos (by omega)).symm
  · refine (if_neg h4).trans ?_
    dsimp only [List.length_cons]
    cases decodeRecord (be16 t1 t0) (be16 l1 l0) (tail.take (be16 l1 l0).toNat) <;> rfl

/-- With body bytes left and fewer than 4 bytes of input, the record is cut off (R163). -/
theorem deserializeAttrs_of_short {passes left : Nat} {rest : Bytes} {attrs : List Attribute} (h : left ≠ 0)
    (hl : rest.length < 4) : deserializeAttrs (passes + 1) rest left attrs = .error .truncatedAttribute := by
  rw [deserializeAttrs_succ _ _ _ _ h, if_pos (by omega)]

theorem short_or_four_bytes (rest : Bytes) :
    rest.length < 4 ∨ ∃ t1 t0 l1 l0 tail, rest = t1 :: t0 :: l1 :: l0 :: tail :=
  match rest with
  | t1 :: t0 :: l1 :: l0 :: tail => .inr ⟨t1, t0, l1, l0, tail, rfl⟩
  | [] | [_] | [_, _] | [_, _, _] => .inl (by simp)

/-- A pass of a successful loop: it decodes a record that lies inside the body and the input (R163). -/
theorem deserializeAttrs_ok_pass {passes left : Nat} {rest : Bytes} {attrs result : List Attribute}
    (h : deserializeAttrs (passes + 1) rest left attrs = .ok result) (hl : left ≠ 0) :
    ∃ t1 t0 l1 l0 tail a, rest = t1 :: t0 :: l1 :: l0 :: tail ∧
      (be16 l1 l0).toNat ≤ tail.length ∧ 4 + (be16 l1 l0).toNat ≤ left ∧
      decodeRecord (be16 t1 t0) (be16 l1 l0) (tail.take (be16 l1 l0).toNat) = .ok a ∧
      deserializeAttrs passes (tail.drop (be16 l1 l0).toNat) (left - (4 + (be16 l1 l0).toNat)) (attrs ++ [a]) =
        .ok result := by
  obtain h4 | ⟨t1, t0, l1, l0, tail, rfl⟩ := short_or_four_bytes rest
  · rw [deserializeAttrs_of_short hl h4] at h
    cases h
  rw [deserializeAttrs_cons _ _ _ _ _ _ _ hl] at h
  split at h
  · cases h
  · next hfit =>
    cases ha : decodeRecord (be16 t1 t0) (be16 l1 l0) (tail.take (be16 l1 l0).toNat) with
    | error e =>
      rw [ha] at h
      cases h
    | ok a =>
      rw [ha] at h
      exact ⟨t1, t0, l1, l0, tail, a, rfl, by omega, by omega, ha, h⟩

/-- The loop has a pass for every record of a body of at most 65535 bytes (R288). -/
theorem length_le_maxPasses {attrs : List Attribute} (h : attrsLength attrs ≤ 65535) : attrs.length ≤ maxPasses := by
  have := length_le_attrsLength attrs
  unfold maxPasses
  omega

/-- The loop reads no byte after the body (R163, R164). -/
theorem deserializeAttrs_take (passes : Nat) (rest : Bytes) {left n : Nat} (attrs : List Attribute) (h : left ≤ n) :
    deserializeAttrs passes (rest.take n) left attrs = deserializeAttrs passes rest left attrs := by
  induction passes generalizing rest left n attrs with
  | zero => rfl
  | succ passes ih =>
    by_cases hl : left = 0
    · rw [hl, deserializeAttrs_zero, deserializeAttrs_zero]
    obtain h4 | ⟨t1, t0, l1, l0, tail, rfl⟩ := short_or_four_bytes rest
    · rw [deserializeAttrs_of_short hl h4, deserializeAttrs_of_short hl (by rw [List.length_take]; omega)]
    by_cases hn : n < 4
    · rw [deserializeAttrs_of_short hl (by rw [List.length_take]; omega), deserializeAttrs_cons _ _ _ _ _ _ _ hl,
        if_pos (by omega)]
    obtain ⟨k, rfl⟩ := Nat.exists_eq_add_of_le' (Nat.le_of_not_lt hn)
    simp only [List.take_succ_cons]
    rw [deserializeAttrs_cons _ _ _ _ _ _ _ hl, deserializeAttrs_cons _ _ _ _ _ _ _ hl, List.length_take,
      show min (min k tail.length + 4) left = min (tail.length + 4) left by omega]
    split
    · rfl
    · next hfit =>
      rw [List.take_take, Nat.min_eq_left (by omega), List.drop_take]
      exact congrArg _ (funext fun a => ih _ _ (by omega))

/-! ### The decoder against the index-based pseudocode -/

theorem byteAt_append_add (front b : Bytes) (i : Nat) : byteAt (front ++ b) (front.length + i) = byteAt b i := by
  rw [byteAt, byteAt, List.getD_append_right _ _ _ _ (Nat.le_add_right _ _), Nat.add_sub_cancel_left]

theorem byteAt_append_of_lt {front : Bytes} (b : Bytes) {i : Nat} (h : i < front.length) :
    byteAt (front ++ b) i = byteAt front i :=
  List.getD_append _ _ _ _ h

theorem byteAt_drop (b : Bytes) (off i : Nat) : byteAt (b.drop off) i = byteAt b (off + i) := by
  simp [byteAt, List.getD_eq_getElem?_getD]

theorem be16At_drop (b : Bytes) (off i : Nat) : be16At (b.drop off) i = be16At b (off + i) := by
  rw [be16At, byteAt_drop, byteAt_drop, be16At, Nat.add_assoc]

theorem refDecodeMappedAddress_eq {dl : BitVec 16} {v : Bytes} (h : v.length = dl.toNat) :
    refDecodeMappedAddress dl v = decodeMappedAddress dl v := by
  unfold refDecodeMappedAddress decodeMappedAddress
  by_cases h2 : dl.toNat < 2
  · rw [if_pos h2, if_pos h2]
  rw [if_neg h2, if_neg h2]
  match v, h with
  | [], h | [_], h => simp only [List.length_cons, List.length_nil] at h; omega
  | reserved :: family :: rest, h =>
    refine if_congr Iff.rfl rfl ?_
    by_cases hn : dl.toNat = familyLength family
    · have hrest : 6 ≤ rest.length := by
        simp only [familyLength, List.length_cons] at h hn
        split at hn <;> omega
      obtain ⟨p1, tail, rfl, htail⟩ := exists_cons hrest
      obtain ⟨p0, addr, rfl, -⟩ := exists_cons htail
      exact (if_neg (not_not.2 hn)).trans (if_neg (not_not.2 hn)).symm
    · exact (if_pos hn).trans (if_pos hn).symm

/-- The two record decoders agree on a value of the declared length (R195, R196). -/
theorem refDecodeRecord_eq {typeCode dl : BitVec 16} {v : Bytes} (h : v.length = dl.toNat) :
    refDecodeRecord typeCode dl v = decodeRecord typeCode dl v :=
  if_congr Iff.rfl (refDecodeMappedAddress_eq h) rfl

/-- A pass of the pseudocode's loop, with its two checks for room as one (R163). -/
theorem refLoop_succ (b : Bytes) {len fuel off used : Nat} (attrs : List Attribute) (h : used < len) :
    refLoop b len (fuel + 1) off used attrs =
      if min (b.length - off) (len - used) < 4 + (be16At b (off + 2)).toNat then .error .truncatedAttribute
      else
        (refDecodeRecord (be16At b off) (be16At b (off + 2))
          (slice b (off + 4) (off + 4 + (be16At b (off + 2)).toNat))).bind fun a =>
          refLoop b len fuel (off + 4 + (be16At b (off + 2)).toNat) (used + 4 + (be16At b (off + 2)).toNat)
            (attrs ++ [a]) := by
  rw [refLoop, if_pos h]
  dsimp only
  by_cases h4 : min (b.length - off) (len - used) < 4
  · rw [if_pos h4, if_pos (by omega)]
  · rw [if_neg h4]
    cases refDecodeRecord (be16At b off) (be16At b (off + 2))
      (slice b (off + 4) (off + 4 + (be16At b (off + 2)).toNat)) <;> rfl

/-- The two loops agree as long as neither runs out of passes: a pass uses 4 bytes of the body or more (R163, R288). -/
theorem refLoop_eq_deserializeAttrs (b : Bytes) {len passes fuel off used : Nat} (attrs : List Attribute)
    (hused : used ≤ len) (hp : len - used ≤ 4 * passes) (hf : len - used ≤ 4 * fuel) :
    refLoop b len fuel off used attrs = deserializeAttrs passes (b.drop off) (len - used) attrs := by
  induction passes generalizing fuel off used attrs with
  | zero =>
    have hdone : ¬ used < len := by omega
    cases fuel <;> simp [refLoop, deserializeAttrs, hdone, show len - used = 0 by omega]
  | succ passes ih =>
    by_cases hdone : used = len
    · rw [hdone, Nat.sub_self, deserializeAttrs_zero]
      cases fuel <;> simp [refLoop]
    cases fuel with
    | zero => omega
    | succ fuel =>
      rw [refLoop_succ _ _ (by omega)]
      obtain h4 | ⟨t1, t0, l1, l0, tail, hrest⟩ := short_or_four_bytes (b.drop off)
      · rw [deserializeAttrs_of_short (by omega) h4]
        rw [List.length_drop] at h4
        exact if_pos (by omega)
      · have hlen : b.length - off = tail.length + 4 := by rw [← List.length_drop, hrest]; rfl
        have htype : be16At b off = be16 t1 t0 := by
          rw [← Nat.add_zero off, ← be16At_drop, hrest]
          rfl
        have hdl : be16At b (off + 2) = be16 l1 l0 := by
          rw [← be16At_drop, hrest]
          rfl
        have htail : tail = b.drop (off + 4) := by
          rw [← List.drop_drop, hrest]
          rfl
        rw [hrest, deserializeAttrs_cons _ _ _ _ _ _ _ (by omega), hlen, htype, hdl]
        split
        · rfl
        · next hfit =>
          rw [slice, Nat.add_sub_cancel_left, ← htail, refDecodeRecord_eq (by rw [List.length_take]; omega)]
          refine congrArg _ (funext fun a => ?_)
          rw [ih _ (by omega) (by omega) (by omega), htail, List.drop_drop, Nat.sub_sub, Nat.add_assoc used]

/-- The pseudocode on a header and a body: the header fields are copied, its loop decides the rest (R162, R163). -/
theorem refDeserialize_header {b : Bytes} {w len : BitVec 16} {cookie : Cookie} {id : Txid} {body : Bytes}
    (hb : b = bytes16 w ++ bytes16 len ++ cookie.toList ++ id.toList ++ body) :
    refDeserialize b = (refLoop b len.toNat len.toNat 20 0 []).map fun attrs =>
      ⟨.decoded, unpackMethod w, unpackClass w, len, cookie, id, attrs⟩ := by
  have hword : be16At b 0 = w := by rw [hb]; exact be16_bytes w
  have hlen : be16At b 2 = len := by rw [hb]; exact be16_bytes len
  have h20 : ¬ b.length < 20 := by
    simp only [hb, List.length_append, bytes16_length, Vector.length_toList]
    omega
  rw [refDeserialize, if_neg h20, hword, hlen]
  obtain ⟨_, _, _, _, rfl⟩ := exists_vector4 cookie
  obtain ⟨_, _, _, _, _, _, _, _, _, _, _, _, rfl⟩ := exists_vector12 id
  cases refLoop b len.toNat len.toNat 20 0 [] with
  | error e => rfl
  | ok attrs =>
    rw [hb]
    rfl

theorem refDeserialize_eq (b : Bytes) : refDeserialize b = deserialize b := by
  by_cases h : b.length < 20
  · rw [deserialize_short h]
    exact if_pos h
  · obtain ⟨w, len, cookie, id, body, hb⟩ := header_split (Nat.le_of_not_lt h)
    have hbody : b.drop 20 = body := by
      rw [hb]
      exact List.drop_left' (by simp)
    rw [refDeserialize_header hb, refLoop_eq_deserializeAttrs b [] (Nat.zero_le _) (passes := maxPasses)
      (by unfold maxPasses; omega) (by omega), hbody, Nat.sub_zero, hb, deserialize_header]
    cases deserializeAttrs maxPasses body len.toNat [] <;> rfl

/-! ### The bytes of a decoded message -/

/-- The value of a decoded record encodes to its bytes of the input, with the reserved byte of a MappedAddress cleared
(R204, R205). -/
theorem encodeValue_of_decodeRecord {typeCode dl : BitVec 16} {v : Bytes} {a : Attribute} (hv : v.length = dl.toNat)
    (h : decodeRecord typeCode dl v = .ok a) :
    (∃ payload, a.value = .raw payload ∧ encodeValue a.value = v) ∨
      ∃ family port addr, a.value = .mappedAddress family port addr ∧ encodeValue a.value = v.set 0 0 := by
  unfold decodeRecord at h
  split at h
  · obtain ⟨reserved, family, p1, p0, addr, rfl, rfl, -⟩ := decodeMappedAddress_ok hv h
    refine .inr ⟨_, _, _, rfl, ?_⟩
    simp [encodeValue]
  · cases h
    exact .inl ⟨v, rfl, rfl⟩

theorem le_of_mem_reservedIndices {off j : Nat} {attrs : List Attribute} (h : j ∈ reservedIndices off attrs) :
    off + 4 ≤ j := by
  induction attrs generalizing off with
  | nil => cases h
  | cons a attrs ih =>
    unfold reservedIndices at h
    split at h
    · obtain rfl | h := List.mem_cons.1 h
      · exact Nat.le_refl _
      · have := ih h
        omega
    · have := ih h
      omega

/-- The reserved bytes of a message are that of its first record, if it has one, and those of the rest. -/
theorem mem_reservedIndices_cons {off j : Nat} {a : Attribute} {attrs : List Attribute} :
    j ∈ reservedIndices off (a :: attrs) ↔
      j ∈ reservedIndices off [a] ∨ j ∈ reservedIndices (off + 4 + a.declaredLength.toNat) attrs := by
  simp only [reservedIndices]
  cases a.value <;> simp

theorem lt_of_mem_reservedIndices_single {off j : Nat} {a : Attribute} (ha : AttrWf a)
    (h : j ∈ reservedIndices off [a]) : j < off + (4 + a.declaredLength.toNat) := by
  obtain ⟨typeCode, dl, _ | _⟩ := a
  · obtain rfl : j = off + 4 := by simpa [reservedIndices] using h
    obtain ⟨-, ⟨-, -, rfl⟩ | ⟨-, -, rfl⟩⟩ := ha <;> simp
  · cases h

theorem byteAt_set_zero (b : Bytes) (i j : Nat) : byteAt (b.set i 0) j = if j = i then 0 else byteAt b j := by
  simp only [byteAt, List.getD_eq_getElem?_getD, List.getElem?_set]
  by_cases hj : j = i
  · subst hj
    by_cases hlt : j < b.length <;> simp [hlt]
  · rw [if_neg hj, if_neg (Ne.symm hj)]

/-- The first `n` bytes of `out` are those of `b`, but 0x00 where the index in the message, `off` above the index in
`b`, is one of `cleared` (R167). -/
def SameButCleared (cleared : List Nat) (off n : Nat) (out b : Bytes) : Prop :=
  ∀ j, j < n → byteAt out j = if off + j ∈ cleared then 0x00 else byteAt b j

theorem SameButCleared.congr {cleared cleared' : List Nat} {off n : Nat} {out b : Bytes}
    (h : SameButCleared cleared off n out b) (hc : ∀ j, j < n → (off + j ∈ cleared' ↔ off + j ∈ cleared)) :
    SameButCleared cleared' off n out b :=
  fun j hj => (h j hj).trans (if_congr (hc j hj).symm rfl rfl)

theorem SameButCleared.append {cleared : List Nat} {off n : Nat} {front front' out b : Bytes}
    (hl : front'.length = front.length) (hfront : SameButCleared cleared off front.length front front')
    (h : SameButCleared cleared (off + front.length) n out b) :
    SameButCleared cleared off (front.length + n) (front ++ out) (front' ++ b) := by
  intro j hj
  by_cases hlt : j < front.length
  · rw [byteAt_append_of_lt _ hlt, byteAt_append_of_lt _ (hl ▸ hlt)]
    exact hfront j hlt
  · obtain ⟨i, rfl⟩ := Nat.exists_eq_add_of_le (Nat.le_of_not_lt hlt)
    rw [byteAt_append_add, h i (by omega), ← hl, byteAt_append_add, Nat.add_assoc]

/-- The bytes in front of every cleared index stay as they are. -/
theorem SameButCleared.append_left {cleared : List Nat} {off n : Nat} {front out b : Bytes}
    (h : SameButCleared cleared (off + front.length) n out b) (hc : ∀ j ∈ cleared, off + front.length ≤ j) :
    SameButCleared cleared off (front.length + n) (front ++ out) (front ++ b) := by
  refine .append rfl (fun j hj => (if_neg fun hmem => ?_).symm) h
  have := hc _ hmem
  omega

theorem sameButCleared_encodeAttribute {t1 t0 l1 l0 : Byte} {v : Bytes} {a : Attribute}
    (hv : v.length = (be16 l1 l0).toNat) (h : decodeRecord (be16 t1 t0) (be16 l1 l0) v = .ok a) (off n : Nat) :
    SameButCleared (reservedIndices off [a]) off n (encodeAttribute a) (t1 :: t0 :: l1 :: l0 :: v) := by
  intro j _
  obtain ⟨-, htype, hdl⟩ := decodeRecord_ok hv h
  rw [encodeAttribute, htype, hdl, bytes16_be16, bytes16_be16]
  obtain ⟨p, hval, henc⟩ | ⟨family, port, addr, hval, henc⟩ := encodeValue_of_decodeRecord hv h
  · have hnone : reservedIndices off [a] = [] := by simp [reservedIndices, hval]
    rw [henc, hnone, if_neg List.not_mem_nil]
    rfl
  · have hfour : reservedIndices off [a] = [off + 4] := by simp [reservedIndices, hval]
    have hset := byteAt_set_zero (t1 :: t0 :: l1 :: l0 :: v) 4 j
    rw [henc, hfour]
    simpa using hset

/-- A record in front of records: each part clears its own reserved bytes. -/
theorem SameButCleared.cons_record {a : Attribute} {attrs : List Attribute} {off n : Nat} {record out b : Bytes}
    (ha : AttrWf a) (hl : record.length = 4 + a.declaredLength.toNat)
    (hrecord : SameButCleared (reservedIndices off [a]) off (4 + a.declaredLength.toNat) (encodeAttribute a) record)
    (h : SameButCleared (reservedIndices (off + (4 + a.declaredLength.toNat)) attrs)
      (off + (4 + a.declaredLength.toNat)) n out b) :
    SameButCleared (reservedIndices off (a :: attrs)) off (4 + a.declaredLength.toNat + n) (encodeAttribute a ++ out)
      (record ++ b) := by
  have henc := encodeAttribute_length ha
  rw [← henc] at hl hrecord h ⊢
  refine .append hl (hrecord.congr fun j hj => ?_) (h.congr fun j hj => ?_)
  · rw [mem_reservedIndices_cons, Nat.add_assoc off 4]
    refine or_iff_left fun hmem => ?_
    have := le_of_mem_reservedIndices hmem
    omega
  · rw [mem_reservedIndices_cons, Nat.add_assoc off 4, ← henc]
    refine or_iff_right fun hmem => ?_
    have := lt_of_mem_reservedIndices_single ha hmem
    omega

/-- The records of a successful loop fill the body, and encode to its bytes but for the reserved ones, wherever in the
message the body starts (R163, R167). -/
theorem deserializeAttrs_ok_sameButCleared {passes left : Nat} {rest : Bytes} {attrs result : List Attribute}
    (h : deserializeAttrs passes rest left attrs = .ok result) :
    left ≤ rest.length ∧ ∃ new, result = attrs ++ new ∧
      ∀ off, SameButCleared (reservedIndices off new) off left (new.flatMap encodeAttribute) rest := by
  induction passes generalizing rest left attrs with
  | zero =>
    rw [deserializeAttrs] at h
    split at h
    · next hl =>
      cases h
      exact ⟨hl ▸ Nat.zero_le _, [], (List.append_nil _).symm, fun _ _ hj => absurd hj (by omega)⟩
    · cases h
  | succ passes ih =>
    by_cases hl : left = 0
    · subst hl
      rw [deserializeAttrs_zero] at h
      cases h
      exact ⟨Nat.zero_le _, [], (List.append_nil _).symm, nofun⟩
    obtain ⟨t1, t0, l1, l0, tail, a, rfl, htail, hbody, ha, h⟩ := deserializeAttrs_ok_pass h hl
    obtain ⟨hle, new, rfl, hnew⟩ := ih h
    have hv : (tail.take (be16 l1 l0).toNat).length = (be16 l1 l0).toNat := List.length_take_of_le htail
    obtain ⟨hwf, -, hdl⟩ := decodeRecord_ok hv ha
    rw [← hdl] at htail hbody hle hnew hv
    rw [List.length_drop] at hle
    refine ⟨?_, a :: new, by simp, fun off => ?_⟩
    · simp only [List.length_cons]
      omega
    · have hcons := SameButCleared.cons_record hwf (record := t1 :: t0 :: l1 :: l0 :: tail.take a.declaredLength.toNat)
        (by simp only [List.length_cons, hv]; omega)
        (hdl ▸ sameButCleared_encodeAttribute (hdl ▸ hv) ha off _) (hnew _)
      simpa [Nat.add_sub_cancel' hbody] using hcons

theorem bytes16_and_mask (w : BitVec 16) :
    bytes16 (w &&& 0x3FFF) = [w.extractLsb' 8 8 &&& 0x3F, w.extractLsb' 0 8] := by
  have hlow : (0x3FFF : BitVec 16).extractLsb' 0 8 = BitVec.allOnes 8 := rfl
  rw [bytes16, BitVec.extractLsb'_and, BitVec.extractLsb'_and, hlow, BitVec.and_allOnes]
  rfl

/-- Clearing bits 15:14 of the type word changes byte 0 of a message alone (R167). -/
theorem byteAt_bytes16_and_mask (w : BitVec 16) (b : Bytes) (j : Nat) :
    byteAt (bytes16 (w &&& 0x3FFF) ++ b) j =
      if j = 0 then byteAt (bytes16 w ++ b) 0 &&& 0x3F else byteAt (bytes16 w ++ b) j := by
  rw [bytes16_and_mask]
  match j with
  | 0 | 1 | _ + 2 => rfl

theorem serialize_unpacked (state : Lifecycle) (w len : BitVec 16) (cookie : Cookie) (id : Txid)
    (attrs : List Attribute) :
    serialize ⟨state, unpackMethod w, unpackClass w, len, cookie, id, attrs⟩ =
      bytes16 (w &&& 0x3FFF) ++ (bytes16 len ++ cookie.toList ++ id.toList ++ attrs.flatMap encodeAttribute) := by
  simp only [serialize, packType_unpack, List.append_assoc]

/-- What DESERIALIZE decodes is a header, copied, and a body, which the loop decodes (R162, R163). -/
theorem deserialize_ok {b : Bytes} {d : Message} (h : deserialize b = .ok d) :
    ∃ (w len : BitVec 16) (cookie : Cookie) (id : Txid) (body : Bytes) (attrs : List Attribute),
      b = bytes16 w ++ bytes16 len ++ cookie.toList ++ id.toList ++ body ∧
      deserializeAttrs maxPasses body len.toNat [] = .ok attrs ∧
      d = ⟨.decoded, unpackMethod w, unpackClass w, len, cookie, id, attrs⟩ := by
  by_cases hlen : b.length < 20
  · rw [deserialize_short hlen] at h
    cases h
  · obtain ⟨w, len, cookie, id, body, rfl⟩ := header_split (Nat.le_of_not_lt hlen)
    rw [deserialize_header] at h
    split at h
    · cases h
    · next attrs hattrs =>
      cases h
      exact ⟨w, len, cookie, id, body, attrs, rfl, hattrs, rfl⟩

end MessageFamily

/-! ### The obligations -/

/-- Settles O20: the state the statement writes out is the slot replaced by what the decoder answers. -/
theorem deserializeFollowsThePseudocode : Obligations.DeserializeFollowsThePseudocode := by
  intro s b hb
  rw [exec_deserialize hb, refDeserialize_eq]
  cases deserialize b <;> rfl

/-- Settles O21: the header is copied, and the loop decodes the records in order. -/
theorem deserializeReadsHeaderAndRecords : Obligations.DeserializeReadsHeaderAndRecords := by
  intro s w cookie id attrs tail hwf hlen hb
  have hL : (BitVec.ofNat 16 (attrsLength attrs)).toNat = attrsLength attrs := by
    rw [BitVec.toNat_ofNat]
    omega
  rw [exec_deserialize hb, List.append_assoc _ _ tail, deserialize_header, hL, ← List.flatMap_def,
    deserializeAttrs_records hwf tail [] (length_le_maxPasses hlen)]
  rfl

/-- Settles O24: the header's fields come back, and the loop decodes the records in order. -/
theorem deserializeOfSerializeIsTheMessage : Obligations.DeserializeOfSerializeIsTheMessage := by
  intro m hm
  have hpasses : m.attrs.length ≤ maxPasses := length_le_maxPasses (hm.length ▸ Nat.le_of_lt_succ m.length.isLt)
  have hloop := deserializeAttrs_records hm.attrs [] [] hpasses
  rw [List.append_nil] at hloop
  rw [serialize, deserialize_header, hm.length, hloop, unpackMethod_packType, unpackClass_packType]
  rfl

/-- Settles O25: the header differs in the type word's top bits alone, the records in the reserved bytes alone. -/
theorem serializeOfDeserializeIsTheInput : Obligations.SerializeOfDeserializeIsTheInput := by
  intro b d h
  have hwf := msgWf_of_deserialize h
  obtain ⟨w, len, cookie, id, body, attrs, rfl, hattrs, rfl⟩ := deserialize_ok h
  obtain ⟨hle, new, hnew, hrecords⟩ := deserializeAttrs_ok_sameButCleared hattrs
  obtain rfl : attrs = new := hnew
  have hheader : (bytes16 w ++ bytes16 len ++ cookie.toList ++ id.toList).length = 20 := by simp
  refine ⟨?_, serialize_length hwf, fun j hj => ?_⟩
  · rw [List.length_append, hheader]
    exact Nat.add_le_add_left hle 20
  have hbytes := SameButCleared.append_left (off := 0) (front := bytes16 w ++ bytes16 len ++ cookie.toList ++ id.toList)
    (by simpa [hheader] using hrecords 20) fun j hmem => by
      have := le_of_mem_reservedIndices hmem
      omega
  have hj := hbytes j (hheader ▸ hj)
  rw [Nat.zero_add] at hj
  rw [serialize_unpacked, byteAt_bytes16_and_mask]
  simp only [List.append_assoc] at hj ⊢
  exact if_congr Iff.rfl rfl hj

/-- Settles O14: the reserved bits decide whether the word decodes, the draw what the command makes of it. -/
theorem constructWordSteps : Obligations.ConstructWordSteps := by
  intro s w draw rest hh hop
  by_cases hres : w >>> 22 = 0
  · have hdec := decode_of_hasFormOf (i := .construct 0 0) ⟨hop, hres⟩
    rw [step_command hh hdec, if_neg (not_not.2 ((extract_top_eq_zero_iff rfl).2 hres))]
    cases draw with
    | none => exact exec_construct_of_none (present_ent ..)
    | some id => exact exec_construct_of_some (present_ent ..)
  · have hdec : decode w = .error .reservedBits := by
      rw [decode, opcodeField, hop]
      exact if_neg hres
    rw [step_command_illegal hh hdec, if_pos (mt (extract_top_eq_zero_iff rfl).1 hres)]
    rfl

/-- Settles O17: an output that fits is written, over the state with the message sealed. -/
theorem serializeWritesHeaderAndRecords : Obligations.SerializeWritesHeaderAndRecords := by
  intro s m hm hwf
  have hl := serialize_length_le hwf
  obtain ⟨hout, holen, hstatus, habove⟩ := writesOutput_ok_setOutput (s.setMsg (sealMessage m)) hl
  exact ⟨_, exec_serialize_of_le hm hl, ⟨hout, holen, hstatus, habove⟩, by rw [sealMessage_eq]; rfl⟩

/-- Settles O18: a header of 20 bytes, and the records. -/
theorem serializedLengthIsTwentyPlusLength : Obligations.SerializedLengthIsTwentyPlusLength :=
  fun _ hm => serialize_length hm

/-- Settles O19: the second run finds the message the first one left, whose bytes are the same. -/
theorem serializeAgainGivesTheSameBytes : Obligations.SerializeAgainGivesTheSameBytes := by
  intro s t hne h
  obtain ⟨hm, -⟩ | ⟨m, -, hl, rfl⟩ := execSerialize_next h
  · exact absurd hm hne
  · rw [← serialize_sealMessage m] at hl ⊢
    refine ⟨_, exec_serialize_of_le rfl hl, ?_, rfl, ?_⟩
    · exact (writesOutput_ok_setOutput _ hl).output.trans (writesOutput_ok_setOutput _ hl).output.symm
    · exact congrArg some (sealMessage_sealMessage m)

/-- Settles O23: the header stays whole, and the loop reads no byte after the body. -/
theorem deserializeIgnoresBytesAfterTheBody : Obligations.DeserializeIgnoresBytesAfterTheBody := by
  intro b hlen
  obtain ⟨w, len, cookie, id, body, hb⟩ := header_split (b := b) (by omega)
  have hL : be16At b 2 = len := by rw [hb]; exact be16_bytes len
  have htake : b.take (20 + len.toNat) =
      bytes16 w ++ bytes16 len ++ cookie.toList ++ id.toList ++ body.take len.toNat := by
    rw [hb, List.take_append, List.take_of_length_le (by simp)]
    simp
  rw [hL, htake, hb, deserialize_header, deserialize_header, deserializeAttrs_take _ _ _ (Nat.le_refl _)]

/-- Settles O13: the draw decides. -/
theorem constructFillsTheSlotOrRaises : Obligations.ConstructFillsTheSlotOrRaises :=
  fun _ _ _ => ⟨fun _ h => exec_construct_of_some h, exec_construct_of_none⟩

/-- Settles O15: the sum is at most 65535, and so its 16 bits hold all of it. -/
theorem addAttributeAppendsAndAddsTheLength : Obligations.AddAttributeAppendsAndAddsTheLength := by
  intro s m a hm hb ha hl
  have hadd := exec_addAttribute_of_building hm hb ha
  rw [addAttribute_of_le hl] at hadd
  refine ⟨_, hadd, rfl, ?_, rfl⟩
  rw [BitVec.toNat_ofNat, appendedLength]
  omega

/-- Settles O16: each check in its turn. -/
theorem addAttributeErrorsInOrder : Obligations.AddAttributeErrorsInOrder := by
  intro s
  refine ⟨exec_addAttribute_of_none, fun m hm => ⟨exec_addAttribute_of_not_building hm,
    exec_addAttribute_of_attr_none hm, fun a hb ha hl => ?_⟩⟩
  rw [exec_addAttribute_of_building hm hb ha, addAttribute_of_lt hl]
  rfl

/-- Settles O22: fewer bytes are no header. -/
theorem deserializeRefusesAShortHeader : Obligations.DeserializeRefusesAShortHeader := by
  intro s b hb hlen
  rw [exec_deserialize hb, deserialize_short hlen]
  rfl

end Sys2Proof
end

section
/-! Family 42_attribute_codec. ENCODE_ATTRIBUTE, DECODE_ATTRIBUTE and the two builds (R190 to R206). In order: how each
command ends, from the state it starts in; one record at the front of a byte string, and the decoder against the
index-based pseudocode; and the bytes of a decoded record. -/

namespace Sys2Proof

open Sys2Proof.Machine

section AttributeFamily

variable {s : State}

/-! ### How the four commands end -/

/-- ENCODE_ATTRIBUTE of an attribute whose record fits writes the record (R193). -/
theorem exec_encodeAttribute_of_le {a : Attribute} (ha : s.attr = some a) (hl : (encodeAttribute a).length ≤ 65555) :
    exec .encodeAttribute s = .next (ok (s.setOutput (encodeAttribute a))) := by
  simp only [exec, execEncodeAttribute, ha, emit_of_le _ hl]

/-- DECODE_ATTRIBUTE on bytes that do not decode writes STATUS alone (R199). -/
theorem exec_decodeAttribute_error {off : BitVec 16} {bytes : Bytes} {e : ErrorKind}
    (hb : readInput s off.toNat = some bytes) (h : decodeAttribute bytes = .error e) :
    exec (.decodeAttribute off) s = .next (raise e s) := by
  simp only [exec, execDecodeAttribute, withInput_of_some hb, h]

theorem exec_buildMappedAddress {text : Bytes} (port : BitVec 16) (h : readInput s 0 = some text) :
    exec (.buildMappedAddress port) s = .next (stageBuilt (buildMappedAddress text port) s) := withInput_of_some h

theorem exec_buildRaw {payload : Bytes} (typeCode : BitVec 16) (h : readInput s 0 = some payload) :
    exec (.buildRaw typeCode) s = .next (stageBuilt (buildRaw typeCode payload) s) := withInput_of_some h

theorem buildRaw_of_le {typeCode : BitVec 16} {payload : Bytes} (ht : typeCode ≠ mappedAddressType)
    (hl : payload.length ≤ 65535) :
    buildRaw typeCode payload = .ok ⟨typeCode, BitVec.ofNat 16 payload.length, .raw payload⟩ :=
  (if_neg ht).trans (if_neg (Nat.not_lt_of_le hl))

theorem buildRaw_refused {typeCode : BitVec 16} {payload : Bytes}
    (h : typeCode = mappedAddressType ∨ 65535 < payload.length) :
    buildRaw typeCode payload = .error .invalidAttribute := by
  unfold buildRaw
  by_cases ht : typeCode = mappedAddressType
  · exact if_pos ht
  · exact (if_neg ht).trans (if_pos (h.resolve_left ht))

/-! ### One record at the front of a byte string -/

theorem decodeAttribute_of_short {b : Bytes} (h : b.length < 4) : decodeAttribute b = .error .truncatedAttribute := by
  match b, h with
  | [], _ | [_], _ | [_, _], _ | [_, _, _], _ => rfl

/-- With type code and length there, the value must be there too, and the record decides the rest (R194). -/
theorem decodeAttribute_cons (t1 t0 l1 l0 : Byte) (rest : Bytes) :
    decodeAttribute (t1 :: t0 :: l1 :: l0 :: rest) =
      if rest.length < (be16 l1 l0).toNat then .error .truncatedValue
      else (decodeRecord (be16 t1 t0) (be16 l1 l0) (rest.take (be16 l1 l0).toNat)).map fun a =>
        (a, 4 + (be16 l1 l0).toNat) := by
  refine if_congr Iff.rfl rfl ?_
  cases decodeRecord (be16 t1 t0) (be16 l1 l0) (rest.take (be16 l1 l0).toNat) <;> rfl

/-- The index-based decoder with type code and length there (R194). -/
theorem refDecodeAttribute_cons (t1 t0 l1 l0 : Byte) (rest : Bytes) :
    refDecodeAttribute (t1 :: t0 :: l1 :: l0 :: rest) =
      if rest.length < (be16 l1 l0).toNat then .error .truncatedValue
      else (refDecodeRecord (be16 t1 t0) (be16 l1 l0) (rest.take (be16 l1 l0).toNat)).map fun a =>
        (a, 4 + (be16 l1 l0).toNat) := by
  have htype : be16At (t1 :: t0 :: l1 :: l0 :: rest) 0 = be16 t1 t0 := rfl
  have hdl : be16At (t1 :: t0 :: l1 :: l0 :: rest) 2 = be16 l1 l0 := rfl
  have hslice : slice (t1 :: t0 :: l1 :: l0 :: rest) 4 (4 + (be16 l1 l0).toNat) = rest.take (be16 l1 l0).toNat := by
    rw [slice, Nat.add_sub_cancel_left]
    rfl
  rw [refDecodeAttribute, if_neg (by simp), htype, hdl, hslice]
  refine if_congr Iff.rfl rfl ?_
  cases refDecodeRecord (be16 t1 t0) (be16 l1 l0) (rest.take (be16 l1 l0).toNat) <;> rfl

/-- The decoder that takes the byte string apart answers what the index-based one does (R194). -/
theorem refDecodeAttribute_eq (b : Bytes) : refDecodeAttribute b = decodeAttribute b := by
  obtain h4 | ⟨t1, t0, l1, l0, rest, rfl⟩ := short_or_four_bytes b
  · rw [decodeAttribute_of_short h4]
    exact if_pos h4
  · rw [refDecodeAttribute_cons, decodeAttribute_cons]
    split
    · rfl
    · next hl => rw [refDecodeRecord_eq (List.length_take_of_le (Nat.le_of_not_lt hl))]

/-! ### The bytes of a decoded record -/

/-- A value of any type but MappedAddress is kept as it is (R195, R197). -/
theorem decodeRecord_of_ne {typeCode : BitVec 16} (h : typeCode ≠ mappedAddressType) (dl : BitVec 16) (v : Bytes) :
    decodeRecord typeCode dl v = .ok ⟨typeCode, dl, .raw v⟩ := if_neg h

/-- The bytes a record uses are its type code, its length and its value (R192, R198). -/
theorem take_record (t1 t0 l1 l0 : Byte) (rest : Bytes) (n : Nat) :
    (t1 :: t0 :: l1 :: l0 :: rest).take (4 + n) =
      bytes16 (be16 t1 t0) ++ bytes16 (be16 l1 l0) ++ rest.take n := by
  rw [bytes16_be16, bytes16_be16, Nat.add_comm]
  rfl

/-- Byte 4 of a record is byte 0 of its value. -/
theorem set_four_record (t l : BitVec 16) (v : Bytes) (x : Byte) :
    (bytes16 t ++ bytes16 l ++ v).set 4 x = bytes16 t ++ bytes16 l ++ v.set 0 x := rfl

/-- Bytes that decode to a MappedAddress encode back to the bytes used, with the reserved byte cleared (R205). -/
theorem encodeAttribute_of_decodeAttribute_mapped {b : Bytes} {a : Attribute} {k : Nat} {family : Byte}
    {port : BitVec 16} {addr : Bytes} (h : decodeAttribute b = .ok (a, k))
    (hval : a.value = .mappedAddress family port addr) : encodeAttribute a = (b.take k).set 4 0x00 := by
  obtain ⟨t1, t0, l1, l0, rest, rfl, hl, rfl, hrec⟩ := decodeAttribute_ok h
  have hv := List.length_take_of_le hl
  obtain ⟨-, htype, hdl⟩ := decodeRecord_ok hv hrec
  obtain ⟨payload, hraw, -⟩ | ⟨-, -, -, -, henc⟩ := encodeValue_of_decodeRecord hv hrec
  · cases hval.symm.trans hraw
  · rw [take_record, set_four_record, encodeAttribute, htype, hdl, henc]

end AttributeFamily

/-! ### The obligations -/

/-- Settles O26: a well-formed record fits in OBUF, and each kind of value is the bytes written out. -/
theorem encodeAttributeWritesTheRecord : Obligations.EncodeAttributeWritesTheRecord := by
  intro s a ha hwf
  have hl := encodeAttribute_length_le hwf
  have hout := writesOutput_ok_setOutput s hl
  refine ⟨_, exec_encodeAttribute_of_le ha hl, ?_, hout.olen.trans (encodeAttribute_length hwf), rfl⟩
  obtain ⟨typeCode, dl, _ | _⟩ := a
  · exact hout
  · exact hout

/-- Settles O27: the two decoders agree, and DECODE_ATTRIBUTE stores what they answer. -/
theorem decodeAttributeFollowsThePseudocode : Obligations.DecodeAttributeFollowsThePseudocode := by
  intro s off b hb
  rw [refDecodeAttribute_eq]
  cases h : decodeAttribute b with
  | error e => exact exec_decodeAttribute_error hb h
  | ok r => exact exec_decodeAttribute_ok hb h

/-- Settles O28: the value's bytes are kept as they are, behind the type code and length they came with. -/
theorem decodeAttributeKeepsARawRecord : Obligations.DecodeAttributeKeepsARawRecord := by
  intro s off t1 t0 l1 l0 rest hb ht hl
  have hdec : decodeAttribute (t1 :: t0 :: l1 :: l0 :: rest) =
      .ok (⟨be16 t1 t0, be16 l1 l0, .raw (rest.take (be16 l1 l0).toNat)⟩, 4 + (be16 l1 l0).toNat) := by
    rw [decodeAttribute_cons, if_neg (Nat.not_lt_of_le hl), decodeRecord_of_ne ht]
    rfl
  exact ⟨_, rfl, exec_decodeAttribute_ok hb hdec, (take_record ..).symm⟩

/-- Settles O30: the value decodes back, and a decoded one encodes to its bytes but for the reserved one. -/
theorem attributeRoundTrip : Obligations.AttributeRoundTrip :=
  ⟨fun _ tail h => decodeAttribute_record tail (encodeValue_length h) (decodeRecord_encodeValue h),
    fun _ _ _ _ _ _ => encodeAttribute_of_decodeAttribute_mapped⟩

/-- Settles O32: PARSE_IP's answer decides what is built. -/
theorem buildMappedAddressFollowsParseIp : Obligations.BuildMappedAddressFollowsParseIp := by
  intro s port text h
  rw [exec_buildMappedAddress port h, buildMappedAddress]
  obtain _ | a | a := parseIp text
  · rfl
  · rfl
  · rfl

/-- Settles O33: a length of at most 65535 is held by 16 bits. -/
theorem buildRawStagesThePayload : Obligations.BuildRawStagesThePayload := by
  intro s typeCode payload h
  rw [exec_buildRaw typeCode h]
  refine ⟨fun ht hl => ⟨BitVec.ofNat 16 payload.length, ?_, ?_⟩, fun hno => ?_⟩
  · rw [BitVec.toNat_ofNat, Nat.mod_eq_of_lt (Nat.lt_succ_of_le hl)]
  · rw [buildRaw_of_le ht hl]
    rfl
  · rw [buildRaw_refused hno]
    rfl

end Sys2Proof
end

section
/-! Family 43_register_access. LOAD_ATTR, READ of ATTR and of CONSUMED, and a word that is no instruction (R230 to R235).
In order: the words no row of the opcode table matches; LOAD_ATTR; what READ finds in ATTR and in CONSUMED. -/

namespace Sys2Proof

open Sys2Proof.Machine

section RegisterAccessFamily

variable {s : State}

/-! ### A word that is no instruction -/

theorem decode_error_of_no_row {w : CmdWord} (h : ∀ row ∈ opcodeRows, w &&& row.1 ≠ row.2) :
    ∃ e, decode w = .error e := by
  cases hd : decode w with
  | error e => exact ⟨e, rfl⟩
  | ok i => exact absurd (matches_rowOf_iff.2 (decode_ok hd).1) (h _ (mem_opcodeRows_iff.2 ⟨i, rfl⟩))

/-- A word that matches the READ row decodes to READ of its selector bits, a listed selector or not (R105, R108). -/
theorem decode_of_read_row {w : CmdWord} (h : w &&& 0xFFFFC0FF = 0x30) :
    decode w = .ok (.read (selectorField w)) :=
  decode_of_hasFormOf (i := .read 0) (matches_rowOf_iff.1 h)

/-! ### LOAD_ATTR -/

theorem exec_loadAttr_of_none {i : BitVec 14} (h : s.msg = none) :
    exec (.loadAttr i) s = .next (raise .noMessage s) := by
  simp only [exec, execLoadAttr, h]

theorem exec_loadAttr_of_lt {i : BitVec 14} {m : Message} (hm : s.msg = some m) (h : i.toNat < m.attrs.length) :
    exec (.loadAttr i) s = .next (ok (s.setAttr m.attrs[i.toNat])) := by
  simp only [exec, execLoadAttr, hm, List.getElem?_eq_getElem h]

theorem exec_loadAttr_of_le {i : BitVec 14} {m : Message} (hm : s.msg = some m) (h : m.attrs.length ≤ i.toNat) :
    exec (.loadAttr i) s = .next (raise .noAttribute s) := by
  simp only [exec, execLoadAttr, hm, List.getElem?_eq_none h]

/-! ### READ of ATTR and of CONSUMED -/

theorem readAttr_of_none {field : Attribute → Option Bytes} (h : s.attr = none) :
    readAttr s field = .error .noAttribute := by
  simp only [readAttr, h]

/-- The variant of the staged attribute lacks the field (R233). -/
theorem readAttr_of_field_none {field : Attribute → Option Bytes} {a : Attribute} (ha : s.attr = some a)
    (h : field a = none) : readAttr s field = .error .noField := by
  simp only [readAttr, ha, h]

theorem readField_attrType {a : Attribute} (ha : s.attr = some a) :
    readField .attrType s = .ok (bytes16 a.typeCode) := by
  rw [readField]
  exact readAttr_ok_iff.2 ⟨a, ha, rfl⟩

theorem readField_attrDlen {a : Attribute} (ha : s.attr = some a) :
    readField .attrDlen s = .ok (bytes16 a.declaredLength) := by
  rw [readField]
  exact readAttr_ok_iff.2 ⟨a, ha, rfl⟩

theorem readField_consumed_of_none (h : s.consumed = none) : readField .consumed s = .error .noField := by
  simp only [readField, h]

theorem readField_consumed_of_some {k : BitVec 17} (h : s.consumed = some k) :
    readField .consumed s = .ok (bytes32 (zext 32 k)) := by
  simp only [readField, h]

/-- CONSUMED's 17 bits, as the four bytes of 32 (R234). -/
theorem bytes32_zext (k : BitVec 17) :
    bytes32 (zext 32 k) =
      [0x00, BitVec.ofNat 8 (k.toNat / 65536), BitVec.ofNat 8 (k.toNat / 256), BitVec.ofNat 8 k.toNat] := by
  have hk : (zext 32 k).toNat = k.toNat := BitVec.toNat_setWidth_of_le (by decide)
  have hlt := k.isLt
  simp only [bytes32, List.cons_eq_cons, and_true]
  refine ⟨BitVec.eq_of_toNat_eq ?_, BitVec.eq_of_toNat_eq ?_, BitVec.eq_of_toNat_eq ?_, BitVec.eq_of_toNat_eq ?_⟩
  all_goals rw [BitVec.extractLsb'_toNat, hk, Nat.shiftRight_eq_div_pow]
  · simp
    omega
  · simp
  · simp
  · simp

end RegisterAccessFamily

/-! ### The obligations -/

/-- Settles O5: a word that matches no row does not decode; one that matches READ's decodes to a READ that finds no
selector. -/
theorem illegalWordRaisesIllegalCommand : Obligations.IllegalWordRaisesIllegalCommand := by
  intro s w draw rest hh h
  obtain hno | ⟨hread, hsel⟩ := h
  · obtain ⟨e, hw⟩ := decode_error_of_no_row hno
    exact step_command_illegal hh hw
  · rw [step_command hh (decode_of_read_row hread)]
    exact readRefusesAnUnlistedSelector _ _ hsel

/-- Settles O36: READ ends with the field's bytes, or with the error of an invalid ATTR or of a variant without the
field. A well-formed attribute bounds the two fields of free length. -/
theorem readGivesTheAttributeFields : Obligations.ReadGivesTheAttributeFields := by
  intro s
  simp only [List.forall_mem_cons, List.forall_mem_append, List.not_mem_nil, false_imp_iff, implies_true, and_true]
  refine ⟨fun ha => ?_, fun a ha hwf => and_assoc.2 ⟨⟨?_, ?_⟩, ?_⟩⟩
  · refine ⟨?_, ?_, ?_, ?_, ?_, ?_, ?_⟩ <;>
      exact exec_read_error (e := .noAttribute) rfl (by simp only [readField, readAttr_of_none ha])
  · exact exec_read_ok rfl (readField_attrType ha) (by simp)
  · exact exec_read_ok rfl (readField_attrDlen ha) (by simp)
  · obtain ⟨typeCode, dl, ⟨family, port, addr⟩ | payload⟩ := a <;>
      simp only [List.forall_mem_cons, List.not_mem_nil, false_imp_iff, implies_true, and_true]
    case mappedAddress =>
      have hl := hwf.addr_length_le rfl
      refine ⟨⟨?_, ?_, ?_, ?_⟩, ?_⟩
      · exact exec_read_ok rfl (readAttr_ok_iff.2 ⟨_, ha, rfl⟩) (by simp)
      · exact exec_read_ok rfl (readAttr_ok_iff.2 ⟨_, ha, rfl⟩) (by simp)
      · exact exec_read_ok rfl (readAttr_ok_iff.2 ⟨_, ha, rfl⟩) (by simp)
      · exact exec_read_ok rfl (readAttr_ok_iff.2 ⟨_, ha, rfl⟩) (by omega)
      · exact exec_read_error (e := .noField) rfl (readAttr_of_field_none ha rfl)
    case raw =>
      have hl := hwf.payload_length rfl
      refine ⟨⟨?_, ?_⟩, ?_, ?_, ?_⟩
      · exact exec_read_ok rfl (readAttr_ok_iff.2 ⟨_, ha, rfl⟩) (by simp)
      · exact exec_read_ok rfl (readAttr_ok_iff.2 ⟨_, ha, rfl⟩) (by omega)
      all_goals exact exec_read_error (e := .noField) rfl (readAttr_of_field_none ha rfl)

/-- Settles O34: the slot is empty, or the index is below the number of attributes, or past it. -/
theorem loadAttrCopiesTheIndexedAttribute : Obligations.LoadAttrCopiesTheIndexedAttribute :=
  fun _ _ => ⟨exec_loadAttr_of_none, fun _ hm => ⟨exec_loadAttr_of_lt hm, exec_loadAttr_of_le hm⟩⟩

/-- Settles O37: the four bytes are CONSUMED's, and OLEN is their number. -/
theorem readGivesConsumed : Obligations.ReadGivesConsumed := by
  intro s
  refine ⟨fun hc => exec_read_error (sel := .consumed) rfl (readField_consumed_of_none hc), fun k hc => ?_⟩
  obtain ⟨t, hx, hout, ht⟩ := exec_read_ok (field := 0x20) rfl (readField_consumed_of_some hc) (by simp [bytes32])
  rw [bytes32_zext] at hout
  have holen : t.olen = 4 := BitVec.eq_of_toNat_eq hout.olen
  rw [holen] at ht
  exact ⟨t, hx, hout, ht⟩

end Sys2Proof
end

section
/-! Family 60_exceptions. The error codes (R250), the errors each command raises (R250, R254), and that an error changes
STATUS alone (R255). In order: the errors of DESERIALIZE, how a command ends, how a command word ends. -/

namespace Sys2Proof

open Sys2Proof.Machine

section ExceptionsFamily

variable {s t : State}

theorem deserialize_error {bytes : Bytes} {e : ErrorKind} (h : deserialize bytes = .error e) :
    e = .truncatedHeader ∨ e = .truncatedAttribute ∨ e = .lengthMismatch ∨ e = .invalidFamily := by
  by_cases hlen : bytes.length < 20
  · rw [deserialize_short hlen] at h
    cases h
    exact .inl rfl
  · obtain ⟨w, len, cookie, id, body, rfl⟩ := header_split (Nat.le_of_not_lt hlen)
    rw [deserialize_header] at h
    cases hattrs : deserializeAttrs maxPasses body len.toNat [] with
    | error e' =>
      rw [hattrs] at h
      cases h
      exact .inr (deserializeAttrs_error hattrs)
    | ok attrs =>
      rw [hattrs] at h
      cases h

/-- A command succeeds, or does nothing but raise an error that the table lists for it (R250, R254, R255). -/
theorem exec_succeeds_or_raises {i : Instr} (h : exec i s = .next t) :
    t.status = 0 ∨ ∃ e ∈ mayRaise i, t = raise e s := by
  cases i with
  | construct method cls =>
    obtain ⟨-, rfl⟩ | ⟨id, -, rfl⟩ := execConstruct_next h
    · exact .inr ⟨.randomness, by simp [mayRaise], rfl⟩
    · exact .inl rfl
  | addAttribute =>
    obtain ⟨-, rfl⟩ | ⟨m, -, ⟨-, rfl⟩ | ⟨-, -, rfl⟩ | ⟨a, -, -, ⟨-, rfl⟩ | ⟨-, rfl⟩⟩⟩ := execAddAttribute_next h
    · exact .inr ⟨.noMessage, by simp [mayRaise], rfl⟩
    · exact .inr ⟨.notMutable, by simp [mayRaise], rfl⟩
    · exact .inr ⟨.noAttribute, by simp [mayRaise], rfl⟩
    · exact .inr ⟨.lengthOverflow, by simp [mayRaise], rfl⟩
    · exact .inl rfl
  | serialize =>
    obtain ⟨-, rfl⟩ | ⟨m, -, -, rfl⟩ := execSerialize_next h
    · exact .inr ⟨.noMessage, by simp [mayRaise], rfl⟩
    · exact .inl rfl
  | deserialize =>
    obtain ⟨bytes, -, ⟨e, he, rfl⟩ | ⟨m, -, rfl⟩⟩ := execDeserialize_next h
    · exact .inr ⟨e, by simpa [mayRaise] using deserialize_error he, rfl⟩
    · exact .inl rfl
  | encodeAttribute =>
    obtain ⟨-, rfl⟩ | ⟨a, -, -, rfl⟩ := execEncodeAttribute_next h
    · exact .inr ⟨.noAttribute, by simp [mayRaise], rfl⟩
    · exact .inl rfl
  | decodeAttribute off =>
    obtain ⟨bytes, -, ⟨e, he, rfl⟩ | ⟨a, k, -, rfl⟩⟩ := execDecodeAttribute_next h
    · exact .inr ⟨e, by simpa [mayRaise] using decodeAttribute_error he, rfl⟩
    · exact .inl rfl
  | buildMappedAddress port =>
    obtain ⟨text, -, ⟨e, he, rfl⟩ | ⟨a, -, rfl⟩⟩ := execBuildMappedAddress_next h
    · exact .inr ⟨e, by simpa [mayRaise] using buildMappedAddress_error he, rfl⟩
    · exact .inl rfl
  | buildRaw typeCode =>
    obtain ⟨payload, -, ⟨e, he, rfl⟩ | ⟨a, -, rfl⟩⟩ := execBuildRaw_next h
    · exact .inr ⟨e, by simpa [mayRaise] using buildRaw_error he, rfl⟩
    · exact .inl rfl
  | loadAttr index =>
    obtain ⟨-, rfl⟩ | ⟨m, -, ⟨-, rfl⟩ | ⟨a, -, rfl⟩⟩ := execLoadAttr_next h
    · exact .inr ⟨.noMessage, by simp [mayRaise], rfl⟩
    · exact .inr ⟨.noAttribute, by simp [mayRaise], rfl⟩
    · exact .inl rfl
  | packType method cls =>
    obtain rfl := execPackType_next h
    exact .inl rfl
  | unpackType word =>
    obtain rfl := execUnpackType_next h
    exact .inl rfl
  | read field =>
    obtain ⟨-, rfl⟩ | ⟨sel, -, ⟨e, he, rfl⟩ | ⟨out, -, -, rfl⟩⟩ := execRead_next h
    · exact .inr ⟨.illegalCommand, by simp [mayRaise], rfl⟩
    · exact .inr ⟨e, List.mem_cons_of_mem _ (by simpa using readField_error he), rfl⟩
    · exact .inl rfl

/-- So does the step with a word on CMD, legal or not, from the state in which the word stands there (R235, R255). -/
theorem step_command_succeeds_or_raises {w : CmdWord} {draw : Option Txid} {rest : List HostAction}
    (hh : s.host = .command w draw :: rest) (h : step s = .next t) :
    t.status = 0 ∨ ∃ e, t = raise e (present draw rest s) := by
  cases hw : decode w with
  | error d =>
    rw [step_command_illegal hh hw] at h
    cases h
    exact .inr ⟨.illegalCommand, rfl⟩
  | ok i =>
    rw [step_command hh hw] at h
    exact (exec_succeeds_or_raises h).imp_right fun ⟨e, _, ht⟩ => ⟨e, ht⟩

end ExceptionsFamily

/-! ### The obligations -/

/-- Settles O39: a command that does not succeed is a `raise`, which writes STATUS alone. -/
theorem failingCommandWritesOnlyStatus : Obligations.FailingCommandWritesOnlyStatus := by
  intro s t w draw rest hh h hstatus
  obtain hok | ⟨e, rfl⟩ := step_command_succeeds_or_raises hh h
  · exact absurd hok hstatus
  · exact ⟨⟨e, rfl⟩, rfl⟩

/-- Settles O40: the error a command raises is one of its row, and its code is STATUS. -/
theorem commandsRaiseOnlyTheirErrors : Obligations.CommandsRaiseOnlyTheirErrors := by
  intro i s t h
  obtain hok | ⟨e, he, rfl⟩ := exec_succeeds_or_raises h
  · exact .inl hok
  · exact .inr ⟨e, he, rfl⟩

/-- Settles O57: success and the fourteen rows, each by the definition of its code. -/
theorem errorCodesAreTheTable : Obligations.ErrorCodesAreTheTable :=
  ⟨rfl, rfl, rfl, rfl, rfl, rfl, rfl, rfl, rfl, rfl, rfl, rfl, rfl, rfl, rfl⟩

end Sys2Proof
end

section
/-! Family 70_reset_and_hazards. RST and an idle CMD (R280, R281), what a command needs that is absent (R282), which
command writes OBUF (R284). In order: the step without a command, the commands without a message or an attribute, the
frame of the output side. -/

namespace Sys2Proof

open Sys2Proof.Machine

section ResetFamily

variable {s t : State}

/-! ### The step without a command -/

theorem step_idle (h : s.host = []) : step s = .next s := by
  simp only [step, h, idle]

theorem step_assertReset {rest : List HostAction} (h : s.host = .assertReset :: rest) :
    step s = .next (assertReset (s.setHost rest)) := by
  simp only [step, h]

/-! ### Commands without a message or an attribute -/

theorem exec_serialize_of_none (h : s.msg = none) : exec .serialize s = .next (raise .noMessage s) := by
  simp only [exec, execSerialize, h]

theorem exec_encodeAttribute_of_none (h : s.attr = none) : exec .encodeAttribute s = .next (raise .noAttribute s) := by
  simp only [exec, execEncodeAttribute, h]

/-- The selectors from METHOD to ATTR_COUNT, as the list R108 gives of them. -/
theorem mem_messageSelectors {f : BitVec 6} (hlo : 0x02 ≤ f.toNat) (hhi : f.toNat ≤ 0x07) :
    f ∈ [0x02, 0x03, 0x04, 0x05, 0x06, 0x07] := by
  revert f
  decide

/-! ### The output side -/

/-- The commands that write OBUF apart, no command changes OBUF or OLEN (R284). -/
theorem exec_output_frame {i : Instr} (h : exec i s = .next t) (hi : writesObuf i = false) :
    t.obuf = s.obuf ∧ t.olen = s.olen := by
  cases exec_effect h with
  | failed | replacedMsg | staged | stagedCounted => exact ⟨rfl, rfl⟩
  | output out ho => exact absurd (hi.symm.trans ho) (by decide)
  | sealedOutput m hs =>
    subst hs
    cases hi

/-- Nor does a command that fails. -/
theorem exec_output_frame_of_status_ne {i : Instr} (h : exec i s = .next t) (hs : t.status ≠ 0) :
    t.obuf = s.obuf ∧ t.olen = s.olen := by
  obtain hok | ⟨e, -, rfl⟩ := exec_succeeds_or_raises h
  · exact absurd hok hs
  · exact ⟨rfl, rfl⟩

end ResetFamily

/-! ### The obligations -/

/-- Settles O43: a command of the other seven and a failing one each keep the buffer and its length. -/
theorem onlyFiveCommandsWriteObuf : Obligations.OnlyFiveCommandsWriteObuf := by
  intro i s t h hcase
  obtain ⟨hobuf, holen⟩ := hcase.elim (exec_output_frame h) (exec_output_frame_of_status_ne h)
  exact ⟨fun _ => hobuf ▸ rfl, holen⟩

/-- Settles O41: each command checks what it needs before it writes. -/
theorem commandsRaiseWhatIsMissing : Obligations.CommandsRaiseWhatIsMissing := by
  refine ⟨fun s hm => ⟨exec_serialize_of_none hm, exec_addAttribute_of_none hm, fun _ => exec_loadAttr_of_none hm, ?_⟩,
    fun s ha => ⟨exec_encodeAttribute_of_none ha, fun m hm hb => exec_addAttribute_of_attr_none hm hb ha⟩⟩
  obtain ⟨-, hread, -⟩ := readGivesTheMessageFields s
  exact fun f hlo hhi => hread hm f (mem_messageSelectors hlo hhi)

/-- Settles O49: the reset values are written over everything but IBUF_MAX, ENT and the host's further actions. -/
theorem resetActionGivesTheResetValues : Obligations.ResetActionGivesTheResetValues :=
  fun _ _ h => step_assertReset h

/-- Settles O51: with no action pending the step is `idle`. -/
theorem idleStepChangesNothing : Obligations.IdleStepChangesNothing := fun _ h => step_idle h

end Sys2Proof
end
